-- ==== Sys2Proof/Word.lean ====
section
/-! DEFINITION. The word types: bytes, 16-bit words, nibbles, 12-bit addresses and register numbers
(00_scope.md R7; 30_encoding.md R56 to R58). -/

namespace Sys2Proof

/-- An 8-bit value, the width of a general register and of a memory byte (R7, R15). -/
abbrev Byte := BitVec 8

/-- A 16-bit value: an instruction word, `I`, `pc`, a stack slot (R55, R18, R19, R22). -/
abbrev Word := BitVec 16

/-- One 4-bit field of an instruction word (R56). -/
abbrev Nibble := BitVec 4

/-- The 12-bit address field `nnn` (R56). -/
abbrev Addr12 := BitVec 12

/-- A general register number; every value of the 4-bit field names a register (R15, R58). -/
abbrev Reg := Fin 16

/-- The register number of `VF` (R16). -/
abbrev VF : Reg := 15

end Sys2Proof
end

