-- ==== Sys2Proof/Syntax.lean ====
section
/-! DEFINITION. The instructions: one constructor for each of the 34 rows of spec/opcode_table.json
(30_encoding.md R60). Operand types carry their field's width, so every operand value the encoding admits
is a value of the type and no other is (R57, R58). -/

namespace Sys2Proof

/-- A CHIP-8 instruction of the base set, in the order of the opcode table. -/
inductive Instr where
  /-- `00E0` `CLS` (R78). -/
  | cls
  /-- `00EE` `RET` (R81). -/
  | ret
  /-- `1nnn` `JP nnn` (R82). -/
  | jp (nnn : Addr12)
  /-- `2nnn` `CALL nnn` (R83). -/
  | call (nnn : Addr12)
  /-- `3xkk` `SE Vx, kk` (R85). -/
  | seImm (x : Reg) (kk : Byte)
  /-- `4xkk` `SNE Vx, kk` (R86). -/
  | sneImm (x : Reg) (kk : Byte)
  /-- `5xy0` `SE Vx, Vy` (R87). -/
  | seReg (x y : Reg)
  /-- `6xkk` `LD Vx, kk` (R92). -/
  | ldImm (x : Reg) (kk : Byte)
  /-- `7xkk` `ADD Vx, kk` (R93). -/
  | addImm (x : Reg) (kk : Byte)
  /-- `8xy0` `LD Vx, Vy` (R94). -/
  | ldReg (x y : Reg)
  /-- `8xy1` `OR Vx, Vy` (R95). -/
  | orReg (x y : Reg)
  /-- `8xy2` `AND Vx, Vy` (R96). -/
  | andReg (x y : Reg)
  /-- `8xy3` `XOR Vx, Vy` (R97). -/
  | xorReg (x y : Reg)
  /-- `8xy4` `ADD Vx, Vy` (R98). -/
  | addReg (x y : Reg)
  /-- `8xy5` `SUB Vx, Vy` (R99). -/
  | sub (x y : Reg)
  /-- `8xy6` `SHR Vx {, Vy}` (R100); `y` is decoded and not used (R61). -/
  | shr (x y : Reg)
  /-- `8xy7` `SUBN Vx, Vy` (R101). -/
  | subn (x y : Reg)
  /-- `8xyE` `SHL Vx {, Vy}` (R102); `y` is decoded and not used (R61). -/
  | shl (x y : Reg)
  /-- `9xy0` `SNE Vx, Vy` (R88). -/
  | sneReg (x y : Reg)
  /-- `Annn` `LD I, nnn` (R103). -/
  | ldI (nnn : Addr12)
  /-- `Bnnn` `JP V0, nnn` (R89). -/
  | jpV0 (nnn : Addr12)
  /-- `Cxkk` `RND Vx, kk` (R106). -/
  | rnd (x : Reg) (kk : Byte)
  /-- `Dxyn` `DRW Vx, Vy, n` (R79); `n` is a count of rows, 0 to 15 (R57). -/
  | drw (x y : Reg) (n : Fin 16)
  /-- `Ex9E` `SKP Vx` (R111). -/
  | skp (x : Reg)
  /-- `ExA1` `SKNP Vx` (R112). -/
  | sknp (x : Reg)
  /-- `Fx07` `LD Vx, DT` (R107). -/
  | ldVxDt (x : Reg)
  /-- `Fx0A` `LD Vx, K` (R113). -/
  | ldVxK (x : Reg)
  /-- `Fx15` `LD DT, Vx` (R108). -/
  | ldDtVx (x : Reg)
  /-- `Fx18` `LD ST, Vx` (R109). -/
  | ldStVx (x : Reg)
  /-- `Fx1E` `ADD I, Vx` (R104). -/
  | addI (x : Reg)
  /-- `Fx29` `LD F, Vx` (R105). -/
  | ldF (x : Reg)
  /-- `Fx33` `LD B, Vx` (R114). -/
  | ldB (x : Reg)
  /-- `Fx55` `LD [I], Vx` (R115); `x` is a count bound, not one register (R58). -/
  | ldMemVx (x : Reg)
  /-- `Fx65` `LD Vx, [I]` (R116); `x` is a count bound, not one register (R58). -/
  | ldVxMem (x : Reg)
  deriving DecidableEq, Repr

end Sys2Proof
end

