-- ==== Sys2Proof/Decode.lean ====
section
/-! DEFINITION. The decoder (30_encoding.md R56, R60, R61), total on any bytes, and the encoder written from
the same table. -/

namespace Sys2Proof

/-! ### The fields of an instruction word (R56) -/

def fieldOp (w : Word) : Nibble := w.extractLsb' 12 4
def fieldX (w : Word) : Nibble := w.extractLsb' 8 4
def fieldY (w : Word) : Nibble := w.extractLsb' 4 4
def fieldN (w : Word) : Nibble := w.extractLsb' 0 4
def fieldKK (w : Word) : Byte := w.extractLsb' 0 8
def fieldNNN (w : Word) : Addr12 := w.extractLsb' 0 12

/-- The result of decoding: an instruction or `Unknown` (R60). -/
inductive Decoded where
  | instr (i : Instr)
  | unknown
  deriving DecidableEq, Repr

/-- Group `0x0`: the exact words `00E0` and `00EE`; every other `0nnn` is `Unknown` (R61, R90). -/
def decodeGroup0 (w : Word) : Decoded :=
  if w = 0x00E0#16 then .instr .cls
  else if w = 0x00EE#16 then .instr .ret
  else .unknown

/-- Group `0x8`: the sub-opcode is `n`; `{8, 9, A, B, C, D, F}` are `Unknown` (R60). -/
def decodeGroup8 (x y : Reg) (n : Nibble) : Decoded :=
  if n = 0x0#4 then .instr (.ldReg x y)
  else if n = 0x1#4 then .instr (.orReg x y)
  else if n = 0x2#4 then .instr (.andReg x y)
  else if n = 0x3#4 then .instr (.xorReg x y)
  else if n = 0x4#4 then .instr (.addReg x y)
  else if n = 0x5#4 then .instr (.sub x y)
  else if n = 0x6#4 then .instr (.shr x y)
  else if n = 0x7#4 then .instr (.subn x y)
  else if n = 0xE#4 then .instr (.shl x y)
  else .unknown

/-- Group `0xE`: the sub-opcode is the whole low byte (R61). -/
def decodeGroupE (x : Reg) (kk : Byte) : Decoded :=
  if kk = 0x9E#8 then .instr (.skp x)
  else if kk = 0xA1#8 then .instr (.sknp x)
  else .unknown

/-- Group `0xF`: the sub-opcode is the whole low byte (R61). -/
def decodeGroupF (x : Reg) (kk : Byte) : Decoded :=
  if kk = 0x07#8 then .instr (.ldVxDt x)
  else if kk = 0x0A#8 then .instr (.ldVxK x)
  else if kk = 0x15#8 then .instr (.ldDtVx x)
  else if kk = 0x18#8 then .instr (.ldStVx x)
  else if kk = 0x1E#8 then .instr (.addI x)
  else if kk = 0x29#8 then .instr (.ldF x)
  else if kk = 0x33#8 then .instr (.ldB x)
  else if kk = 0x55#8 then .instr (.ldMemVx x)
  else if kk = 0x65#8 then .instr (.ldVxMem x)
  else .unknown

/-- Decoding, a total function of the 16-bit word alone (R60, R64): dispatch on `op`, then within the groups
0, 5, 8, 9, E and F on the full word, on `n` or on `kk`. -/
def decode (w : Word) : Decoded :=
  let op := fieldOp w
  let x : Reg := (fieldX w).toFin
  let y : Reg := (fieldY w).toFin
  let n := fieldN w
  let kk := fieldKK w
  let nnn := fieldNNN w
  if op = 0x0#4 then decodeGroup0 w
  else if op = 0x1#4 then .instr (.jp nnn)
  else if op = 0x2#4 then .instr (.call nnn)
  else if op = 0x3#4 then .instr (.seImm x kk)
  else if op = 0x4#4 then .instr (.sneImm x kk)
  else if op = 0x5#4 then (if n = 0x0#4 then .instr (.seReg x y) else .unknown)
  else if op = 0x6#4 then .instr (.ldImm x kk)
  else if op = 0x7#4 then .instr (.addImm x kk)
  else if op = 0x8#4 then decodeGroup8 x y n
  else if op = 0x9#4 then (if n = 0x0#4 then .instr (.sneReg x y) else .unknown)
  else if op = 0xA#4 then .instr (.ldI nnn)
  else if op = 0xB#4 then .instr (.jpV0 nnn)
  else if op = 0xC#4 then .instr (.rnd x kk)
  else if op = 0xD#4 then .instr (.drw x y n.toFin)
  else if op = 0xE#4 then decodeGroupE x kk
  else decodeGroupF x kk

/-! ### Bytes -/

/-- Big-endian: the byte at the lower address is bits 15:8 (20_memory.md R44). -/
def wordOfBytes (hi lo : Byte) : Word := hi ++ lo

/-- The byte an instruction word puts at the lower address (R44). -/
def hiByte (w : Word) : Byte := w.extractLsb' 8 8

/-- The byte an instruction word puts at the higher address (R44). -/
def loByte (w : Word) : Byte := w.extractLsb' 0 8

/-- What the decoder makes of a byte sequence: an instruction and the bytes after it, or why there is none.
A decoder always consumes two bytes (R55). -/
inductive DecodedBytes where
  | instr (i : Instr) (rest : List Byte)
  /-- The word selects no instruction (R62). -/
  | unknown (w : Word)
  /-- Fewer than two bytes are left. -/
  | truncated
  deriving DecidableEq, Repr

/-- The decoder on any bytes. -/
def decodeBytes : List Byte → DecodedBytes
  | hi :: lo :: rest =>
    match decode (wordOfBytes hi lo) with
    | .instr i => .instr i rest
    | .unknown => .unknown (wordOfBytes hi lo)
  | [_] => .truncated
  | [] => .truncated

/-- The instruction word a table word stands for: bit 0 of the table's number is the least significant bit of
the one 16-bit word, and every bit above `nbits` is 0. -/
def tableWord (nbits w : Nat) : Word := BitVec.ofNat 16 (w % 2 ^ nbits)

/-- The instruction the decoder reads from a word numbered as spec/opcode_table.json numbers it: the word is
laid out as the hardware stores it, high byte first (R44). -/
def decodeTableWord (nbits w : Nat) : Option Instr :=
  match decodeBytes [hiByte (tableWord nbits w), loByte (tableWord nbits w)] with
  | .instr i _ => some i
  | .unknown _ => none
  | .truncated => none

/-! ### The encoder (R56, R59, R60) -/

/-- Format `A`: `oooo nnnn nnnn nnnn`. -/
def wordA (op : Nibble) (nnn : Addr12) : Word := op ++ nnn

/-- Formats `XK` and `XS`: `oooo xxxx kkkk kkkk`. -/
def wordXK (op : Nibble) (x : Reg) (kk : Byte) : Word := op ++ (BitVec.ofFin (w := 4) x ++ kk : Addr12)

/-- Formats `XYS` and `XYN`: `oooo xxxx yyyy nnnn`. -/
def wordXYN (op : Nibble) (x y : Reg) (n : Nibble) : Word :=
  op ++ (BitVec.ofFin (w := 4) x ++ (BitVec.ofFin (w := 4) y ++ n : Byte) : Addr12)

/-- The word of an instruction. Every instruction has one; the don't-care `y` of the shifts is kept. -/
def encode : Instr → Word
  | .cls => 0x00E0#16
  | .ret => 0x00EE#16
  | .jp nnn => wordA 0x1#4 nnn
  | .call nnn => wordA 0x2#4 nnn
  | .seImm x kk => wordXK 0x3#4 x kk
  | .sneImm x kk => wordXK 0x4#4 x kk
  | .seReg x y => wordXYN 0x5#4 x y 0x0#4
  | .ldImm x kk => wordXK 0x6#4 x kk
  | .addImm x kk => wordXK 0x7#4 x kk
  | .ldReg x y => wordXYN 0x8#4 x y 0x0#4
  | .orReg x y => wordXYN 0x8#4 x y 0x1#4
  | .andReg x y => wordXYN 0x8#4 x y 0x2#4
  | .xorReg x y => wordXYN 0x8#4 x y 0x3#4
  | .addReg x y => wordXYN 0x8#4 x y 0x4#4
  | .sub x y => wordXYN 0x8#4 x y 0x5#4
  | .shr x y => wordXYN 0x8#4 x y 0x6#4
  | .subn x y => wordXYN 0x8#4 x y 0x7#4
  | .shl x y => wordXYN 0x8#4 x y 0xE#4
  | .sneReg x y => wordXYN 0x9#4 x y 0x0#4
  | .ldI nnn => wordA 0xA#4 nnn
  | .jpV0 nnn => wordA 0xB#4 nnn
  | .rnd x kk => wordXK 0xC#4 x kk
  | .drw x y n => wordXYN 0xD#4 x y (BitVec.ofFin n)
  | .skp x => wordXK 0xE#4 x 0x9E#8
  | .sknp x => wordXK 0xE#4 x 0xA1#8
  | .ldVxDt x => wordXK 0xF#4 x 0x07#8
  | .ldVxK x => wordXK 0xF#4 x 0x0A#8
  | .ldDtVx x => wordXK 0xF#4 x 0x15#8
  | .ldStVx x => wordXK 0xF#4 x 0x18#8
  | .addI x => wordXK 0xF#4 x 0x1E#8
  | .ldF x => wordXK 0xF#4 x 0x29#8
  | .ldB x => wordXK 0xF#4 x 0x33#8
  | .ldMemVx x => wordXK 0xF#4 x 0x55#8
  | .ldVxMem x => wordXK 0xF#4 x 0x65#8

/-! ### The opcode table's match and mask pairs (R60) -/

/-- One row of spec/opcode_table.json: a word is the row's when `w &&& mask = pattern`. -/
structure OpcodeRow where
  mnemonic : String
  pattern : Word
  mask : Word
  deriving DecidableEq, Repr

/-- Whether a word is one of the row's words. -/
def OpcodeRow.accepts (r : OpcodeRow) (w : Word) : Bool := w &&& r.mask = r.pattern

/-- The table's row of each instruction. -/
def Instr.row : Instr → OpcodeRow
  | .cls => ⟨"CLS", 0x00E0, 0xFFFF⟩
  | .ret => ⟨"RET", 0x00EE, 0xFFFF⟩
  | .jp _ => ⟨"JP", 0x1000, 0xF000⟩
  | .call _ => ⟨"CALL", 0x2000, 0xF000⟩
  | .seImm _ _ => ⟨"SE_imm", 0x3000, 0xF000⟩
  | .sneImm _ _ => ⟨"SNE_imm", 0x4000, 0xF000⟩
  | .seReg _ _ => ⟨"SE_reg", 0x5000, 0xF00F⟩
  | .ldImm _ _ => ⟨"LD_imm", 0x6000, 0xF000⟩
  | .addImm _ _ => ⟨"ADD_imm", 0x7000, 0xF000⟩
  | .ldReg _ _ => ⟨"LD_reg", 0x8000, 0xF00F⟩
  | .orReg _ _ => ⟨"OR", 0x8001, 0xF00F⟩
  | .andReg _ _ => ⟨"AND", 0x8002, 0xF00F⟩
  | .xorReg _ _ => ⟨"XOR", 0x8003, 0xF00F⟩
  | .addReg _ _ => ⟨"ADD_reg", 0x8004, 0xF00F⟩
  | .sub _ _ => ⟨"SUB", 0x8005, 0xF00F⟩
  | .shr _ _ => ⟨"SHR", 0x8006, 0xF00F⟩
  | .subn _ _ => ⟨"SUBN", 0x8007, 0xF00F⟩
  | .shl _ _ => ⟨"SHL", 0x800E, 0xF00F⟩
  | .sneReg _ _ => ⟨"SNE_reg", 0x9000, 0xF00F⟩
  | .ldI _ => ⟨"LD_I", 0xA000, 0xF000⟩
  | .jpV0 _ => ⟨"JP_V0", 0xB000, 0xF000⟩
  | .rnd _ _ => ⟨"RND", 0xC000, 0xF000⟩
  | .drw _ _ _ => ⟨"DRW", 0xD000, 0xF000⟩
  | .skp _ => ⟨"SKP", 0xE09E, 0xF0FF⟩
  | .sknp _ => ⟨"SKNP", 0xE0A1, 0xF0FF⟩
  | .ldVxDt _ => ⟨"LD_Vx_DT", 0xF007, 0xF0FF⟩
  | .ldVxK _ => ⟨"LD_Vx_K", 0xF00A, 0xF0FF⟩
  | .ldDtVx _ => ⟨"LD_DT_Vx", 0xF015, 0xF0FF⟩
  | .ldStVx _ => ⟨"LD_ST_Vx", 0xF018, 0xF0FF⟩
  | .addI _ => ⟨"ADD_I", 0xF01E, 0xF0FF⟩
  | .ldF _ => ⟨"LD_F", 0xF029, 0xF0FF⟩
  | .ldB _ => ⟨"LD_B", 0xF033, 0xF0FF⟩
  | .ldMemVx _ => ⟨"LD_mem_Vx", 0xF055, 0xF0FF⟩
  | .ldVxMem _ => ⟨"LD_Vx_mem", 0xF065, 0xF0FF⟩

/-- The 34 rows of the opcode table, in its order (each read off one instruction of the row). -/
def opcodeTable : List OpcodeRow :=
  [Instr.cls, .ret, .jp 0, .call 0, .seImm 0 0, .sneImm 0 0, .seReg 0 0, .ldImm 0 0, .addImm 0 0,
    .ldReg 0 0, .orReg 0 0, .andReg 0 0, .xorReg 0 0, .addReg 0 0, .sub 0 0, .shr 0 0, .subn 0 0,
    .shl 0 0, .sneReg 0 0, .ldI 0, .jpV0 0, .rnd 0 0, .drw 0 0 0, .skp 0, .sknp 0, .ldVxDt 0, .ldVxK 0,
    .ldDtVx 0, .ldStVx 0, .addI 0, .ldF 0, .ldB 0, .ldMemVx 0, .ldVxMem 0].map Instr.row

end Sys2Proof
end

