-- ==== Sys2Proof/Config.lean ====
section
/-! DEFINITION. What the spec leaves open as a parameter of the block: `SHIFT_FLAG_ORDER`, `RNG` and the
type of `FONT` (92_eei_decisions.md D3, D15, D12). The open host schedule is data: a list of operations
(Machine/HostOps.lean). -/

namespace Sys2Proof

/-- The two values of the open parameter `SHIFT_FLAG_ORDER` (43_register_alu.md R91 item 4). -/
inductive ShiftFlagOrder where
  /-- `VF` ends holding the shifted-out bit. -/
  | flagLast
  /-- The flag is written first and `VF` itself is then shifted. -/
  | flagFirst
  deriving DecidableEq, Repr, Inhabited

/-- DESIGN CHOICE (log entry 4), safe: the value of `SHIFT_FLAG_ORDER` is uninterpreted, so that a claim
holds under both orders, as 43_register_alu.md R91 asks. -/
opaque Config.shiftFlagOrder : ShiftFlagOrder

/-- DESIGN CHOICE (log entry 2): the value of the `k`-th call of `Draw8()` is uninterpreted: a free value,
any of 0 to 255, under no law (10_state.md R30). -/
opaque Config.rngDraw : Nat → BitVec 8

/-- The open part of parameter `FONT`: glyphs 1 to F, five bytes each (row `d - 1` holds glyph `d`).
Glyph 0 is fixed by the source and is no part of it (20_memory.md R41; 92_eei_decisions.md D12). -/
abbrev Config.Font := Vector (Vector Byte 5) 15

end Sys2Proof
end

