-- ==== Sys2Proof/Machine/State.lean ====
section
/-! DEFINITION. The state of the core (10_state.md R15 to R36), the fatal conditions (60_exceptions.md R117),
the refusals, and the machine after `construct()` (R36). -/

namespace Sys2Proof.Machine

open Sys2Proof

/-- The six fatal conditions, each with its one info value (60_exceptions.md R117, R118). The spec describes
what raising one does (R121), so the model takes it: `raiseFault` answers a NEXT state whose faulted status
holds the condition. `step` itself never answers `Outcome.fault` (log entry 1). -/
inductive Fault where
  /-- Raised by `CALL` with `SP = 16`; info: the `pc` of the `CALL` (R24, R83). Safe: the step changes nothing else. -/
  | stackOverflow (pc : Word)
  /-- Raised by `RET` with `SP = 0`; info: the `pc` of the `RET` (R25, R81). Safe: the step changes nothing else. -/
  | stackUnderflow (pc : Word)
  /-- Raised by fetch, `DRW`, `LD B`, `LD [I], Vx` and `LD Vx, [I]` on an access that reaches address 4096 or
  above; info: the lowest out-of-range address (R37, R70, R79, R114 to R116). Safe. -/
  | memoryOutOfRange (address : Nat)
  /-- Raised by `step` on a word that decodes as `Unknown`; info: the word (R62, R71). Safe. -/
  | unknownOpcode (word : Word)
  /-- Raised by the host's `load` of more than 3584 bytes; info: the length offered (R141). Safe. -/
  | loadTooLarge (length : Nat)
  /-- Raised by `SKP` and `SKNP` with `V[x] > 15`; info: `V[x]` (R110 to R112). Safe (92_eei_decisions.md D7). -/
  | keyIndexOutOfRange (index : Byte)
  deriving DecidableEq, Repr

/-- What the model refuses, that is, gives no transition. -/
inductive Refusal where
  /-- Raised by an arm of `exec` whose instruction has no meaning yet. Safe. No arm does. -/
  | notModelled (mnemonic : String)
  /-- Raised by `step` and by the host's `load` while the faulted status is set: the spec gives them no
  transition there (10_state.md R35; 40_cycle.md R69). Safe. -/
  | faultedStatus (fault : Fault)
  /-- Raised by the host's `pressKey` and `releaseKey` with an identifier outside 0 to 15: the spec gives them
  no transition there (60_exceptions.md R127). Safe. -/
  | keyIdOutOfSet (key : Nat)
  deriving DecidableEq, Repr

/-- Memory: the bytes that differ from what a fresh machine holds, addresses strictly rising (log entry 5;
`Memory.wf` in Machine/Ops.lean). -/
abbrev Memory := List Host.Cell

/-- The display: 32 rows of 64 pixels, `true` is lit; pixel `D[x, y]` is column `x` of row `y` (R28). -/
abbrev Display := Vector (Vector Bool 64) 32

/-- All the state the spec gives the block, and one counter of the model's own. -/
structure State where
  /-- `V[0]` to `V[15]` (R15, R16). -/
  v : Vector Byte 16
  /-- The address register `I` (R18). -/
  i : Word
  /-- The program counter (R19 to R21). -/
  pc : Word
  /-- The stack pointer `SP`, 0 to 16 (R23). -/
  sp : Fin 17
  /-- The stack slots `S[0]` to `S[15]` (R22). -/
  stack : Vector Word 16
  /-- The delay timer `DT` (R26). -/
  dt : Byte
  /-- The sound timer `ST` (R26). -/
  st : Byte
  /-- The key flags `K[0]` to `K[15]`, `true` is pressed (R27). -/
  keys : Vector Bool 16
  /-- The display buffer `D` (R28). -/
  display : Display
  /-- Memory `M` (R37). -/
  mem : Memory
  /-- The faulted status (R35). -/
  faulted : Option Fault
  /-- The MODEL's own field: how many random draws were taken. It stands for the random source's internal
  state, which is not architectural (R29; log entry 2). -/
  draws : Nat
  deriving DecidableEq, Repr

/-- The machine after `construct()` (10_state.md R36; 70_reset_and_hazards.md R137, R139), with the default
`FONT` (log entry 3). Memory lists nothing: every byte is as `Memory.initial` gives it. `draws` is the model's
own field; DESIGN CHOICE 0 (log entry 2). -/
def State.reset : State where
  v := Vector.replicate 16 0x00#8
  i := 0x0000#16
  pc := 0x0200#16
  sp := 0
  stack := Vector.replicate 16 0x0000#16
  dt := 0x00#8
  st := 0x00#8
  keys := Vector.replicate 16 false
  display := Vector.replicate 32 (Vector.replicate 64 false)
  mem := []
  faulted := none
  draws := 0

end Sys2Proof.Machine
end

