-- ==== Sys2Proof/Machine/Params.lean ====
section
/-! DEFINITION. The parameter values of 00_scope.md R6 and the glyph bytes of 20_memory.md R41. -/

namespace Sys2Proof.Machine

open Sys2Proof

/-- `MEM_SIZE`: an address is legal exactly when it is below this (R6, R37, R39). -/
def memSize : Nat := 4096

/-- `ORIGIN`: where `load` puts a program (R6, R43). -/
def origin : Nat := 0x200

/-- `GLYPH_SIZE`, bytes in a glyph (R6). -/
def glyphSize : Nat := 5

/-- Glyph 0, the one glyph the source gives (R41). -/
def glyphZero : Vector Byte 5 := #v[0xF0, 0x90, 0x90, 0x90, 0xF0]

/-- PRESUMED (log entry 3), unsafe: glyphs 1 to F of the conventional CHIP-8 font, the default of parameter
`FONT` (R41; 92_eei_decisions.md D12). -/
def conventionalFont : Config.Font := #v[
  #v[0x20, 0x60, 0x20, 0x20, 0x70],
  #v[0xF0, 0x10, 0xF0, 0x80, 0xF0],
  #v[0xF0, 0x10, 0xF0, 0x10, 0xF0],
  #v[0x90, 0x90, 0xF0, 0x10, 0x10],
  #v[0xF0, 0x80, 0xF0, 0x10, 0xF0],
  #v[0xF0, 0x80, 0xF0, 0x90, 0xF0],
  #v[0xF0, 0x10, 0x20, 0x40, 0x40],
  #v[0xF0, 0x90, 0xF0, 0x90, 0xF0],
  #v[0xF0, 0x90, 0xF0, 0x10, 0xF0],
  #v[0xF0, 0x90, 0xF0, 0x90, 0x90],
  #v[0xE0, 0x90, 0xE0, 0x90, 0xE0],
  #v[0xF0, 0x80, 0x80, 0x80, 0xF0],
  #v[0xE0, 0x90, 0x90, 0x90, 0xE0],
  #v[0xF0, 0x80, 0xF0, 0x80, 0xF0],
  #v[0xF0, 0x80, 0xF0, 0x80, 0x80]]

/-- The byte a fresh machine with the given `FONT` holds at an address: `M[5*d + r]` is row `r` of glyph `d`
for the addresses below 80, and 0x00 above (R36, R40, R41). -/
def fontByte (font : Config.Font) (a : Nat) : Byte :=
  if h0 : a < 5 then glyphZero[a]
  else if h1 : a < 80 then (font[a / 5 - 1]'(by omega))[a % 5]'(Nat.mod_lt _ (by decide))
  else 0x00#8

end Sys2Proof.Machine
end

