-- ==== Sys2Proof/Machine/Ops.lean ====
section
/-! DEFINITION. The named operations the meanings are written with: memory, registers, the stack, the display,
the random source, fetch, committing a rule's result, and raising a fatal condition. -/

namespace Sys2Proof.Machine

open Sys2Proof

/-! ### Memory (20_memory.md R37 to R49) -/

/-- What a byte that no write has changed reads as: the contents after `construct()` (R36, R41), with the
default `FONT` (PRESUMED, log entry 3). -/
def Memory.initial (a : Nat) : Byte := fontByte conventionalFont a

/-- Reading one byte: the last value written, or the value after `construct()` (R49). -/
def Memory.read : Memory → Nat → Byte
  | [], a => Memory.initial a
  | (k, b) :: m, a => if k = a then b else Memory.read m a

/-- Placing a byte in the rising list. -/
def Memory.insert (a : Nat) (b : Byte) : Memory → Memory
  | [] => [(a, b)]
  | (k, c) :: m =>
    if a < k then (a, b) :: (k, c) :: m
    else if k = a then (a, b) :: m
    else (k, c) :: Memory.insert a b m

/-- Writing one byte, and only that byte (R49). A byte equal to what an unlisted address reads as is not
listed, so that equal memories are equal lists (log entry 5). -/
def Memory.write (m : Memory) (a : Nat) (b : Byte) : Memory :=
  if b = Memory.initial a then m.filter (fun c => c.1 ≠ a) else Memory.insert a b m

/-- `bs` goes to `a, a+1, ...` in ascending order (R37). -/
def Memory.writeBytes : Memory → Nat → List Byte → Memory
  | m, _, [] => m
  | m, a, b :: bs => Memory.writeBytes (m.write a b) (a + 1) bs

/-- The `n` bytes at `a, a+1, ...` in ascending order (R37). -/
def Memory.readBytes (m : Memory) : Nat → Nat → List Byte
  | _, 0 => []
  | a, n + 1 => m.read a :: Memory.readBytes m (a + 1) n

/-- The addresses of the list rise strictly and lie above `low`. -/
def Memory.rising : Nat → Memory → Bool
  | _, [] => true
  | low, (k, _) :: m => decide (low ≤ k) && Memory.rising (k + 1) m

/-- The canonical form: addresses strictly rising, all inside the address space, and no entry equal to what an
unlisted address reads as (log entry 5). -/
def Memory.wf (m : Memory) : Bool :=
  Memory.rising 0 m && m.all (fun c => decide (c.1 < memSize) && decide (c.2 ≠ Memory.initial c.1))

/-- The range check of an `n`-byte access at `a`: addresses are exact naturals, no wrap; an access of 0 bytes
never faults; the info is the lowest out-of-range address, `max(a, 4096)` (R37, R38). -/
def rangeFault (a n : Nat) : Option Fault :=
  if n = 0 ∨ a + n ≤ memSize then none else some (.memoryOutOfRange (max a memSize))

/-- `MemRead(a, n)`: every address is checked before any byte is read (R9, R37). -/
def memRead (m : Memory) (a n : Nat) : Except Fault (List Byte) :=
  match rangeFault a n with
  | some f => .error f
  | none => .ok (m.readBytes a n)

/-- `MemWrite(a, n, v)` with `n` the number of bytes given: every address is checked before any byte is
written (R9, R37). -/
def memWrite (m : Memory) (a : Nat) (bs : List Byte) : Except Fault Memory :=
  match rangeFault a bs.length with
  | some f => .error f
  | none => .ok (m.writeBytes a bs)

/-- The memory of a fresh machine whose `FONT` is the given one (R36, R41). -/
def Memory.ofFont (font : Config.Font) : Memory :=
  Memory.writeBytes [] 0 ((List.range 80).map (fontByte font))

/-- `construct()`: a fresh machine whose `FONT` is the given one (10_state.md R36; 70_reset_and_hazards.md R137).
With the default `FONT` it is `State.reset` (`construct_conventionalFont` in Laws/Ops.lean). -/
def State.construct (font : Config.Font) : State := { State.reset with mem := Memory.ofFont font }

/-! ### Registers (10_state.md R15 to R21) -/

/-- `V[x]`. -/
def State.readV (s : State) (x : Reg) : Byte := s.v[x.val]

/-- `V[x] <- b`; no register is hard-wired (R15). -/
def State.writeV (s : State) (x : Reg) (b : Byte) : State := { s with v := s.v.set x.val b }

/-- `I <- w`. -/
def State.writeI (s : State) (w : Word) : State := { s with i := w }

/-- `pc <- w`. -/
def State.writePc (s : State) (w : Word) : State := { s with pc := w }

/-- `pc <- pc + 2` (40_cycle.md R73). An instruction that is fetched has `pc <= 0xFFE`, so this never wraps in
a step (R20; log entry 6). -/
def State.advance (s : State) : State := s.writePc (s.pc + 2#16)

/-- A conditional skip: `pc <- pc + 4` if the condition holds, else `pc <- pc + 2` (40_cycle.md R75). -/
def State.skipIf (s : State) (c : Bool) : State := s.writePc (if c then s.pc + 4#16 else s.pc + 2#16)

/-- `DT <- b`. -/
def State.writeDt (s : State) (b : Byte) : State := { s with dt := b }

/-- `ST <- b`. -/
def State.writeSt (s : State) (b : Byte) : State := { s with st := b }

/-- Memory replaced as a whole by the result of a `MemWrite`. -/
def State.writeMem (s : State) (m : Memory) : State := { s with mem := m }

/-- The whole register file replaced, for the loads of several registers. -/
def State.writeAllV (s : State) (v : Vector Byte 16) : State := { s with v := v }

/-- `V[j] <- b, V[j+1] <- ...` in ascending order (47_memory_transfer.md R116). -/
def loadRegs : Vector Byte 16 → Nat → List Byte → Vector Byte 16
  | v, _, [] => v
  | v, j, b :: bs => loadRegs (v.setIfInBounds j b) (j + 1) bs

/-- `[V[0], ..., V[x]]` (47_memory_transfer.md R115). -/
def State.regsUpTo (s : State) (x : Reg) : List Byte := s.v.toList.take (x.val + 1)

/-! ### The display (10_state.md R28) -/

/-- `D[x, y]`: column `x` of row `y`. -/
def Display.pixel (d : Display) (x : Fin 64) (y : Fin 32) : Bool := d[y.val][x.val]

/-- `D[x, y] <- b`. -/
def Display.setPixel (d : Display) (x : Fin 64) (y : Fin 32) (b : Bool) : Display :=
  d.set y.val (d[y.val].set x.val b)

/-- The display with every pixel unlit. -/
def Display.cleared : Display := Vector.replicate 32 (Vector.replicate 64 false)

/-- The display replaced as a whole by the result of a drawing. -/
def State.writeDisplay (s : State) (d : Display) : State := { s with display := d }

/-! ### The random source (10_state.md R29, R30) -/

/-- The value the next `Draw8()` returns: free, under no law (log entry 2). -/
def State.nextDraw (s : State) : Byte := Config.rngDraw s.draws

/-- One call of `Draw8()` was made. -/
def State.drawTaken (s : State) : State := { s with draws := s.draws + 1 }

/-! ### Raising a fatal condition, and committing a rule's result -/

/-- Taking a fatal condition (60_exceptions.md R121): every effect of the step is discarded, and the faulted
status becomes `some f`. No register is saved, no mode changes, control goes to no vector. There is no return
from it: only `construct()` leaves the faulted status (R122). -/
def raiseFault (f : Fault) (s : State) : State := { s with faulted := some f }

/-- How an instruction's rule ends: `Done` with the state its pseudocode reached, `Wait`, or a `raise`
(40_cycle.md R72; 00_scope.md R10). -/
inductive RuleResult where
  | done (s : State)
  | wait
  | raised (f : Fault)
  deriving DecidableEq, Repr

/-- The end of a step that started in `s`: `Done` commits the private copy, `Wait` discards it and changes
nothing, and a `raise` discards it and takes the fatal condition (00_scope.md R10; 40_cycle.md R68, R76). -/
def commit (s : State) : RuleResult → Host.Outcome State Fault Refusal
  | .done s' => .next s'
  | .wait => .next s
  | .raised f => .next (raiseFault f s)

/-- Going on with the value of a checked access, or raising its fault. -/
def RuleResult.ofExcept {α : Type} (e : Except Fault α) (k : α → RuleResult) : RuleResult :=
  match e with
  | .ok a => k a
  | .error f => .raised f

/-! ### The call stack (10_state.md R22 to R25) -/

/-- `Push(v)`: `raise StackOverflow(pc)` when `SP = 16`; else `S[SP] <- v; SP <- SP + 1` (R24). -/
def State.push (s : State) (w : Word) : Except Fault State :=
  if h : s.sp.val < 16 then
    .ok { s with stack := s.stack.set s.sp.val w, sp := ⟨s.sp.val + 1, Nat.succ_lt_succ h⟩ }
  else .error (.stackOverflow s.pc)

/-- `Pop()`: `raise StackUnderflow(pc)` when `SP = 0`; else `SP <- SP - 1` and the value is `S[SP]`; the slot
is not cleared (R25). -/
def State.pop (s : State) : Except Fault (Word × State) :=
  if h : 0 < s.sp.val then
    .ok (s.stack[s.sp.val - 1], { s with sp := ⟨s.sp.val - 1, by omega⟩ })
  else .error (.stackUnderflow s.pc)

/-! ### Fetch (40_cycle.md R70; 20_memory.md R44) -/

/-- The two bytes at `pc` and `pc + 1`, combined big-endian, after one range check of the 2-byte access; `pc` is
not changed. -/
def fetch (s : State) : Except Fault Word :=
  match rangeFault s.pc.toNat 2 with
  | some f => .error f
  | none => .ok (wordOfBytes (s.mem.read s.pc.toNat) (s.mem.read (s.pc.toNat + 1)))

/-- An instruction word placed in memory as the hardware stores it, high byte first (R44). -/
def State.placeWord (s : State) (w : Word) : State :=
  s.writeMem (s.mem.writeBytes s.pc.toNat [hiByte w, loByte w])

/-- A state that can fetch: no fault recorded (R69) and `pc <= 0xFFE` (R70); a `pc` that no fetch reaches is set
to the origin. -/
def State.fetchable (s : State) : State :=
  { s with faulted := none, pc := if s.pc.toNat + 2 ≤ memSize then s.pc else BitVec.ofNat 16 origin }

end Sys2Proof.Machine
end

