-- ==== Sys2Proof/Machine/Operands.lean ====
section
/-! DEFINITION. The operand forms: immediates (30_encoding.md R57), a register used as a key index
(46_keypad.md R110), a register scaled to a glyph address (44_address_register.md R105), the decimal digits of a
register (47_memory_transfer.md R114), and the keypad as an operand (46_keypad.md R113). -/

namespace Sys2Proof.Machine

open Sys2Proof

/-- `zext_16(nnn)` (R57). -/
def zextAddr (nnn : Addr12) : Word := nnn.zeroExtend 16

/-- `zext_16` of a register value (R89, R104, R105). -/
def zextByte (b : Byte) : Word := b.zeroExtend 16

/-- `zext_16(V[x]) * 5`, the address of the glyph of `V[x]`, not masked (R105). -/
def glyphAddress (b : Byte) : Word := zextByte b * BitVec.ofNat 16 glyphSize

/-- `KeyIndex(v)`: `raise KeyIndexOutOfRange(v)` when `v > 15` (R110). -/
def keyIndex (b : Byte) : Except Fault (Fin 16) :=
  if h : b.toNat < 16 then .ok ⟨b.toNat, h⟩ else .error (.keyIndexOutOfRange b)

/-- The key flag `K[k]` (10_state.md R27). -/
def State.key (s : State) (k : Fin 16) : Bool := s.keys[k.val]

/-- `min { k in 0..15 | K[k] = true }`, or none when no key is pressed (R113). -/
def State.lowestPressed (s : State) : Option (Fin 16) := (List.finRange 16).find? s.key

/-- A key index as the byte `LD Vx, K` stores (R113). -/
def keyByte (k : Fin 16) : Byte := BitVec.ofNat 8 k.val

/-- The hundreds, tens and ones digits of a byte, by integer division (R114). -/
def bcdDigits (b : Byte) : List Byte :=
  [BitVec.ofNat 8 (b.toNat / 100), BitVec.ofNat 8 (b.toNat / 10 % 10), BitVec.ofNat 8 (b.toNat % 10)]

end Sys2Proof.Machine
end

