-- ==== Sys2Proof/Machine/AddressReg.lean ====
section
/-! DEFINITION. The address-register family (44_address_register.md R103 to R105). None accesses memory, none
writes `VF`; each ends with `pc <- pc + 2`. -/

namespace Sys2Proof.Machine

open Sys2Proof

/-- `LD I, nnn` (R103). -/
def execLdI (nnn : Addr12) (s : State) : Host.Outcome State Fault Refusal :=
  commit s (.done (s.writeI (zextAddr nnn)).advance)

/-- `ADD I, Vx`, modulo 2^16 (R104). -/
def execAddI (x : Reg) (s : State) : Host.Outcome State Fault Refusal :=
  commit s (.done (s.writeI (s.i + zextByte (s.readV x))).advance)

/-- `LD F, Vx`: `I <- V[x] * 5` (R105). -/
def execLdF (x : Reg) (s : State) : Host.Outcome State Fault Refusal :=
  commit s (.done (s.writeI (glyphAddress (s.readV x))).advance)

end Sys2Proof.Machine
end

