-- ==== Sys2Proof/Machine/Flags.lean ====
section
/-! DEFINITION. Every flag computation: the six values written to `VF` as a flag (10_state.md R31), each computed
on exact naturals (43_register_alu.md R91), and the order in which result and flag are written. -/

namespace Sys2Proof.Machine

open Sys2Proof

/-- A flag as the byte `VF` receives: 1 or 0. -/
def flagByte (c : Bool) : Byte := if c then 0x01#8 else 0x00#8

/-- `ADD Vx, Vy`: 1 if the exact sum exceeds 255 (R98). -/
def carryFlag (a b : Byte) : Byte := flagByte (decide (a.toNat + b.toNat > 255))

/-- `SUB` and `SUBN`: 1 if the minuend is at least the subtrahend, that is, no borrow (R99, R101). -/
def noBorrowFlag (minuend subtrahend : Byte) : Byte := flagByte (decide (minuend.toNat ≥ subtrahend.toNat))

/-- `SHR`: bit 0 of the value before the shift (R100). -/
def shiftedOutRight (a : Byte) : Byte := flagByte (a.getLsbD 0)

/-- `SHL`: bit 7 of the value before the shift (R102). -/
def shiftedOutLeft (a : Byte) : Byte := flagByte (a.getLsbD 7)

/-- Result first, flag second: with `x = 15`, `VF` ends holding the flag (R91 item 3). -/
def State.writeResultThenFlag (s : State) (x : Reg) (result flag : Byte) : State :=
  (s.writeV x result).writeV VF flag

/-- The write-back of a shift whose operation is `shift`, in the order `SHIFT_FLAG_ORDER` says (R91 item 4). For
`x != 15` the two orders agree, and the result and the flag go to different registers; for `x = 15`,
`flag_last` leaves the flag in `VF` and `flag_first` leaves the flag shifted. Laws/Ops.lean proves that this is
the spec's two sequential statements under each order (`writeShift_eq_sequential`). -/
def State.writeShift (s : State) (order : ShiftFlagOrder) (x : Reg) (shift : Byte → Byte) (flag : Byte) : State :=
  if x = VF then
    s.writeV VF (match order with | .flagLast => flag | .flagFirst => shift flag)
  else (s.writeV x (shift (s.readV x))).writeV VF flag

end Sys2Proof.Machine
end

