-- ==== Sys2Proof/Machine/Alu.lean ====
section
/-! DEFINITION. The register load and arithmetic-logic family (43_register_alu.md R91 to R102). Operands are
read before any register is written; results are modulo 256; each ends with `pc <- pc + 2`. -/

namespace Sys2Proof.Machine

open Sys2Proof

/-- `LD Vx, kk` (R92). -/
def execLdImm (x : Reg) (kk : Byte) (s : State) : Host.Outcome State Fault Refusal :=
  commit s (.done (s.writeV x kk).advance)

/-- `ADD Vx, kk`, with no flag (R93). -/
def execAddImm (x : Reg) (kk : Byte) (s : State) : Host.Outcome State Fault Refusal :=
  commit s (.done (s.writeV x (s.readV x + kk)).advance)

/-- `LD Vx, Vy` (R94). -/
def execLdReg (x y : Reg) (s : State) : Host.Outcome State Fault Refusal :=
  commit s (.done (s.writeV x (s.readV y)).advance)

/-- `OR Vx, Vy`, with no flag (R95). -/
def execOrReg (x y : Reg) (s : State) : Host.Outcome State Fault Refusal :=
  commit s (.done (s.writeV x (s.readV x ||| s.readV y)).advance)

/-- `AND Vx, Vy`, with no flag (R96). -/
def execAndReg (x y : Reg) (s : State) : Host.Outcome State Fault Refusal :=
  commit s (.done (s.writeV x (s.readV x &&& s.readV y)).advance)

/-- `XOR Vx, Vy`, with no flag (R97). -/
def execXorReg (x y : Reg) (s : State) : Host.Outcome State Fault Refusal :=
  commit s (.done (s.writeV x (s.readV x ^^^ s.readV y)).advance)

/-- `ADD Vx, Vy`: the sum modulo 256, then `VF` gets the carry (R98). -/
def execAddReg (x y : Reg) (s : State) : Host.Outcome State Fault Refusal :=
  commit s (.done (s.writeResultThenFlag x (s.readV x + s.readV y)
    (carryFlag (s.readV x) (s.readV y))).advance)

/-- `SUB Vx, Vy`: `V[x] - V[y]` modulo 256, then `VF` gets "no borrow" (R99). -/
def execSub (x y : Reg) (s : State) : Host.Outcome State Fault Refusal :=
  commit s (.done (s.writeResultThenFlag x (s.readV x - s.readV y)
    (noBorrowFlag (s.readV x) (s.readV y))).advance)

/-- `SHR Vx`: shifts `V[x]` right by one and `VF` gets the bit shifted out; `y` is not used (R61, R100). The
order of the two writes is the open parameter `SHIFT_FLAG_ORDER` (log entry 4). -/
def execShr (x _y : Reg) (s : State) : Host.Outcome State Fault Refusal :=
  commit s (.done (s.writeShift Config.shiftFlagOrder x (fun b => b >>> 1) (shiftedOutRight (s.readV x))).advance)

/-- `SUBN Vx, Vy`: `V[y] - V[x]` modulo 256, then `VF` gets "no borrow" (R101). -/
def execSubn (x y : Reg) (s : State) : Host.Outcome State Fault Refusal :=
  commit s (.done (s.writeResultThenFlag x (s.readV y - s.readV x)
    (noBorrowFlag (s.readV y) (s.readV x))).advance)

/-- `SHL Vx`: shifts `V[x]` left by one modulo 256 and `VF` gets the bit shifted out; `y` is not used (R61,
R102). The order of the two writes is the open parameter `SHIFT_FLAG_ORDER` (log entry 4). -/
def execShl (x _y : Reg) (s : State) : Host.Outcome State Fault Refusal :=
  commit s (.done (s.writeShift Config.shiftFlagOrder x (fun b => b <<< 1) (shiftedOutLeft (s.readV x))).advance)

end Sys2Proof.Machine
end

