-- ==== Sys2Proof/Machine/Control.lean ====
section
/-! DEFINITION. The control-flow family (42_control_flow.md R81 to R89). -/

namespace Sys2Proof.Machine

open Sys2Proof

/-- `RET`: `pc <- Pop()`, with nothing added (R81). -/
def execRet (s : State) : Host.Outcome State Fault Refusal :=
  commit s (.ofExcept s.pop fun r => .done (r.2.writePc r.1))

/-- `JP nnn`: `pc <- nnn` (R82). -/
def execJp (nnn : Addr12) (s : State) : Host.Outcome State Fault Refusal :=
  commit s (.done (s.writePc (zextAddr nnn)))

/-- `CALL nnn`: pushes `pc`, the address of this very instruction, and `pc <- nnn` (R83, R84). -/
def execCall (nnn : Addr12) (s : State) : Host.Outcome State Fault Refusal :=
  commit s (.ofExcept (s.push s.pc) fun s' => .done (s'.writePc (zextAddr nnn)))

/-- `SE Vx, kk`: skips when `V[x] = kk` (R85). -/
def execSeImm (x : Reg) (kk : Byte) (s : State) : Host.Outcome State Fault Refusal :=
  commit s (.done (s.skipIf (decide (s.readV x = kk))))

/-- `SNE Vx, kk`: skips when `V[x]` differs from `kk` (R86). -/
def execSneImm (x : Reg) (kk : Byte) (s : State) : Host.Outcome State Fault Refusal :=
  commit s (.done (s.skipIf (decide (s.readV x ≠ kk))))

/-- `SE Vx, Vy`: skips when `V[x] = V[y]` (R87). -/
def execSeReg (x y : Reg) (s : State) : Host.Outcome State Fault Refusal :=
  commit s (.done (s.skipIf (decide (s.readV x = s.readV y))))

/-- `SNE Vx, Vy`: skips when `V[x]` differs from `V[y]` (R88). -/
def execSneReg (x y : Reg) (s : State) : Host.Outcome State Fault Refusal :=
  commit s (.done (s.skipIf (decide (s.readV x ≠ s.readV y))))

/-- `JP V0, nnn`: `pc <- V[0] + nnn`; the sum is at most 0x10FE and never wraps (R89). -/
def execJpV0 (nnn : Addr12) (s : State) : Host.Outcome State Fault Refusal :=
  commit s (.done (s.writePc (zextByte (s.readV 0) + zextAddr nnn)))

end Sys2Proof.Machine
end

