-- ==== Sys2Proof/Machine/Display.lean ====
section
/-! DEFINITION. The display family: `CLS` and `DRW` (41_display.md R78, R79). -/

namespace Sys2Proof.Machine

open Sys2Proof

/-- `CLS`: every pixel becomes unlit, `pc <- pc + 2` (R78). -/
def execCls (s : State) : Host.Outcome State Fault Refusal :=
  commit s (.done (s.writeDisplay Display.cleared).advance)

/-- The display while a sprite is drawn, and whether a collision was seen. -/
abbrev Drawing := Display × Bool

/-- A column number, `(vx + col) mod 64` (R79). -/
def wrapX (n : Nat) : Fin 64 := ⟨n % 64, Nat.mod_lt _ (by decide)⟩

/-- A row number, `(vy + row) mod 32` (R79). -/
def wrapY (n : Nat) : Fin 32 := ⟨n % 32, Nat.mod_lt _ (by decide)⟩

/-- One set sprite bit: a lit pixel is a collision, and the pixel is toggled (R79). -/
def togglePixel (d : Drawing) (x : Fin 64) (y : Fin 32) : Drawing :=
  (d.1.setPixel x y (!d.1.pixel x y), d.2 || d.1.pixel x y)

/-- One sprite row from column `col` on, `left` columns to go: bit 7 is column 0 and bit 0 is column 7, and a
zero bit leaves its pixel alone (R79; 92_eei_decisions.md D11). -/
def drawCols (vx : Nat) (y : Fin 32) (b : Byte) : Nat → Nat → Drawing → Drawing
  | _, 0, d => d
  | col, left + 1, d =>
    drawCols vx y b (col + 1) left (if b.getLsbD (7 - col) then togglePixel d (wrapX (vx + col)) y else d)

/-- The sprite rows from row `row` on (R79). -/
def drawRows (vx vy : Nat) : Nat → List Byte → Drawing → Drawing
  | _, [], d => d
  | row, b :: bs, d => drawRows vx vy (row + 1) bs (drawCols vx (wrapY (vy + row)) b 0 8 d)

/-- `DRW Vx, Vy, n`: `n` bytes at `I` are XORed onto the display at (`V[x]`, `V[y]`), wrapping at the edges; then
`VF` gets the collision bit and `pc <- pc + 2`. The coordinates are read before `VF` is written, and the range
check comes before any pixel changes (R79). -/
def execDrw (x y : Reg) (n : Fin 16) (s : State) : Host.Outcome State Fault Refusal :=
  commit s (.ofExcept (memRead s.mem s.i.toNat n.val) fun rows =>
    let drawing := drawRows (s.readV x).toNat (s.readV y).toNat 0 rows (s.display, false)
    .done ((s.writeDisplay drawing.1).writeV VF (flagByte drawing.2)).advance)

end Sys2Proof.Machine
end

