-- ==== Sys2Proof/Machine/Keypad.lean ====
section
/-! DEFINITION. The keypad family (46_keypad.md R110 to R113). The keypad is only read. -/

namespace Sys2Proof.Machine

open Sys2Proof

/-- `SKP Vx`: skips when the key numbered `V[x]` is pressed; `KeyIndexOutOfRange` when `V[x] > 15` (R111). -/
def execSkp (x : Reg) (s : State) : Host.Outcome State Fault Refusal :=
  commit s (.ofExcept (keyIndex (s.readV x)) fun k => .done (s.skipIf (s.key k)))

/-- `SKNP Vx`: skips when the key numbered `V[x]` is not pressed; `KeyIndexOutOfRange` when `V[x] > 15`
(R112). -/
def execSknp (x : Reg) (s : State) : Host.Outcome State Fault Refusal :=
  commit s (.ofExcept (keyIndex (s.readV x)) fun k => .done (s.skipIf (!s.key k)))

/-- `LD Vx, K`: waits while no key is pressed, changing nothing; else stores the lowest pressed key index and
`pc <- pc + 2` (R113; 40_cycle.md R76). -/
def execLdVxK (x : Reg) (s : State) : Host.Outcome State Fault Refusal :=
  commit s (match s.lowestPressed with
    | none => .wait
    | some k => .done (s.writeV x (keyByte k)).advance)

end Sys2Proof.Machine
end

