-- ==== Sys2Proof/Machine/RandomTimers.lean ====
section
/-! DEFINITION. The random and timer family (45_random_timers.md R106 to R109). Each ends with
`pc <- pc + 2`. -/

namespace Sys2Proof.Machine

open Sys2Proof

/-- `RND Vx, kk`: one fresh draw, ANDed with `kk` (R106). A value is drawn whatever `kk` is. -/
def execRnd (x : Reg) (kk : Byte) (s : State) : Host.Outcome State Fault Refusal :=
  commit s (.done (s.drawTaken.writeV x (s.nextDraw &&& kk)).advance)

/-- `LD Vx, DT` (R107). -/
def execLdVxDt (x : Reg) (s : State) : Host.Outcome State Fault Refusal :=
  commit s (.done (s.writeV x s.dt).advance)

/-- `LD DT, Vx` (R108). -/
def execLdDtVx (x : Reg) (s : State) : Host.Outcome State Fault Refusal :=
  commit s (.done (s.writeDt (s.readV x)).advance)

/-- `LD ST, Vx` (R109). -/
def execLdStVx (x : Reg) (s : State) : Host.Outcome State Fault Refusal :=
  commit s (.done (s.writeSt (s.readV x)).advance)

end Sys2Proof.Machine
end

