-- ==== Sys2Proof/Machine/Transfer.lean ====
section
/-! DEFINITION. The memory transfer family (47_memory_transfer.md R114 to R116). Each makes one access through
`I`, checked as a whole before any byte moves, leaves `I` as it is and ends with `pc <- pc + 2`. -/

namespace Sys2Proof.Machine

open Sys2Proof

/-- `LD B, Vx`: the three decimal digits of `V[x]` to `I`, `I + 1`, `I + 2` (R114). -/
def execLdB (x : Reg) (s : State) : Host.Outcome State Fault Refusal :=
  commit s (.ofExcept (memWrite s.mem s.i.toNat (bcdDigits (s.readV x))) fun m => .done (s.writeMem m).advance)

/-- `LD [I], Vx`: `V[0]` to `V[x]` inclusive to `I` up (R115). -/
def execLdMemVx (x : Reg) (s : State) : Host.Outcome State Fault Refusal :=
  commit s (.ofExcept (memWrite s.mem s.i.toNat (s.regsUpTo x)) fun m => .done (s.writeMem m).advance)

/-- `LD Vx, [I]`: `V[0]` to `V[x]` inclusive from `I` up (R116). -/
def execLdVxMem (x : Reg) (s : State) : Host.Outcome State Fault Refusal :=
  commit s (.ofExcept (memRead s.mem s.i.toNat (x.val + 1)) fun bs => .done (s.writeAllV (loadRegs s.v 0 bs)).advance)

end Sys2Proof.Machine
end

