-- ==== Sys2Proof/Machine/Step.lean ====
section
/-! DEFINITION. `step`: one fetch-decode-execute cycle (40_cycle.md R68 to R72), and the placing of an
instruction where the next step fetches. -/

namespace Sys2Proof.Machine

open Sys2Proof

/-- One call of `step()` (R68): refused while the faulted status is set (R69); else fetch (R70), decode (R71) and
execute (R72). A fetch fault or an `Unknown` word is raised, in that order (60_exceptions.md R120): the next
state is the old one with the faulted status set (R121). -/
def step (s : State) : Host.Outcome State Fault Refusal :=
  match s.faulted with
  | some f => .refused (.faultedStatus f)
  | none =>
    match fetch s with
    | .error f => .next (raiseFault f s)
    | .ok w =>
      match decode w with
      | .unknown => .next (raiseFault (.unknownOpcode w) s)
      | .instr i => exec i s

/-- The state with the instruction of a table word stored at the `pc`, so that the next step runs it. A recorded
fault is cleared, and a `pc` that no fetch reaches is set to the origin; nothing else changes (log entry 7). -/
def State.withFetchWord (s : State) (nbits w : Nat) : State := s.fetchable.placeWord (tableWord nbits w)

end Sys2Proof.Machine
end

