-- ==== Sys2Proof/Machine/HostOps.lean ====
section
/-! DEFINITION. The driver's side: the seven operations of 60_exceptions.md R131, what each answers, and what it
does to the state. Each is one atomic transition; an overlapping pair of calls cannot be written (R132). -/

namespace Sys2Proof.Machine

open Sys2Proof

/-- The code of a fatal condition (60_exceptions.md R117; 92_eei_decisions.md D9). -/
def Fault.code : Fault → Nat
  | .stackOverflow _ => 1
  | .stackUnderflow _ => 2
  | .memoryOutOfRange _ => 3
  | .unknownOpcode _ => 4
  | .loadTooLarge _ => 5
  | .keyIndexOutOfRange _ => 6

/-- The one info value a fatal condition carries (60_exceptions.md R117, R118). -/
def Fault.info : Fault → Nat
  | .stackOverflow pc => pc.toNat
  | .stackUnderflow pc => pc.toNat
  | .memoryOutOfRange a => a
  | .unknownOpcode w => w.toNat
  | .loadTooLarge len => len
  | .keyIndexOutOfRange v => v.toNat

/-- The driver's operations (R131). A key identifier is any number; those outside 0 to 15 are refused (R127). -/
inductive HostOp where
  | construct
  | load (bytes : List Byte)
  | step
  | tickTimers
  | pressKey (k : Nat)
  | releaseKey (k : Nat)
  | readDisplay
  deriving DecidableEq, Repr

/-- What the driver gets back (R131; 00_scope.md R11). -/
inductive Reply where
  /-- `construct`, `tickTimers`, `pressKey` and `releaseKey` give nothing back but the machine. -/
  | nothing
  /-- `load` copied the image. -/
  | ok
  /-- `step` completed an instruction. -/
  | advanced
  /-- `step` found the key-wait instruction and no key pressed. -/
  | waiting
  /-- `step` or `load` met a fatal condition: `Fault(code, info)`. -/
  | fault (code info : Nat)
  /-- `readDisplay`: the 2048 pixels, row-major (R129). -/
  | snapshot (pixels : Vector Bool 2048)
  deriving DecidableEq, Repr

/-- A timer tick: down by 1 if above 0, never below 0 (R124). -/
def tickTimer (b : Byte) : Byte := if b.toNat > 0 then b - 1#8 else b

/-- `tickTimers()`: each timer by itself (R124). -/
def State.tickTimers (s : State) : State := { s with dt := tickTimer s.dt, st := tickTimer s.st }

/-- `K[k] <- pressed` (R127). -/
def State.setKey (s : State) (k : Fin 16) (pressed : Bool) : State := { s with keys := s.keys.set k.val pressed }

/-- `load(bytes)` on a machine that is not faulted: `bytes[i]` goes to `0x200 + i`, and nothing else changes
(70_reset_and_hazards.md R140). -/
def State.loadImage (s : State) (bytes : List Byte) : State := s.writeMem (s.mem.writeBytes origin bytes)

/-- `readDisplay()`: element `y * 64 + x` is pixel `D[x, y]` (R129). -/
def Display.snapshot (d : Display) : Vector Bool 2048 :=
  Vector.ofFn fun k => d.pixel ⟨k.val % 64, Nat.mod_lt _ (by decide)⟩ ⟨k.val / 64, by omega⟩

/-- Whether an instruction is the key wait `LD Vx, K`, the only one that can answer `Wait` (40_cycle.md R72). -/
def isKeyWait : Decoded → Bool
  | .instr (.ldVxK _) => true
  | _ => false

/-- Whether the next `step()` returns `Waiting`: no fault is recorded, the word at `pc` is `LD Vx, K`, and no key
is pressed (40_cycle.md R76). -/
def State.waits (s : State) : Bool :=
  s.faulted.isNone && s.lowestPressed.isNone &&
    (match fetch s with
      | .ok w => isKeyWait (decode w)
      | .error _ => false)

/-- What `step()` returned, from the states before and after it (00_scope.md R11; 60_exceptions.md R121). -/
def stepReply (before after : State) : Reply :=
  match after.faulted with
  | some f => .fault f.code f.info
  | none => if before.waits then .waiting else .advanced

/-- `step()` as the driver sees it. -/
def hostStep (s : State) : Host.Outcome (State × Reply) Fault Refusal :=
  match step s with
  | .next t => .next (t, stepReply s t)
  | .fault f => .fault f
  | .refused r => .refused r

/-- `load(bytes)`: refused while faulted; a fatal condition, with no byte written, when the image runs past
memory (70_reset_and_hazards.md R140, R141). -/
def hostLoad (bytes : List Byte) (s : State) : Host.Outcome (State × Reply) Fault Refusal :=
  match s.faulted with
  | some f => .refused (.faultedStatus f)
  | none =>
    if origin + bytes.length > memSize then
      .next (raiseFault (.loadTooLarge bytes.length) s, .fault 5 bytes.length)
    else .next (s.loadImage bytes, .ok)

/-- `pressKey(k)` and `releaseKey(k)`: refused outside the closed set (60_exceptions.md R127). -/
def hostKey (k : Nat) (pressed : Bool) (s : State) : Host.Outcome (State × Reply) Fault Refusal :=
  if h : k < 16 then .next (s.setKey ⟨k, h⟩ pressed, .nothing) else .refused (.keyIdOutOfSet k)

/-- `construct()`: a fresh machine. The random source's state is unspecified after it (10_state.md R36), so the
draws go on being fresh free values: the model's counter is kept (log entry 2). -/
def State.reconstruct (font : Config.Font) (s : State) : State := { State.construct font with draws := s.draws }

/-- One operation of the driver on a block whose `FONT` is the given one (R131). -/
def hostOp (font : Config.Font) (o : HostOp) (s : State) : Host.Outcome (State × Reply) Fault Refusal :=
  match o with
  | .construct => .next (s.reconstruct font, .nothing)
  | .load bytes => hostLoad bytes s
  | .step => hostStep s
  | .tickTimers => .next (s.tickTimers, .nothing)
  | .pressKey k => hostKey k true s
  | .releaseKey k => hostKey k false s
  | .readDisplay => .next (s, .snapshot s.display.snapshot)

/-- A schedule: operations take effect in exactly the order the driver issues them (R132). It answers the state
reached and the replies, oldest first, and stops at the first refusal. -/
def runHost (font : Config.Font) : List HostOp → State → Host.Outcome (State × List Reply) Fault Refusal
  | [], s => .next (s, [])
  | o :: os, s =>
    match hostOp font o s with
    | .fault f => .fault f
    | .refused r => .refused r
    | .next (t, r) =>
      match runHost font os t with
      | .next (u, rs) => .next (u, r :: rs)
      | .fault f => .fault f
      | .refused q => .refused q

end Sys2Proof.Machine
end

