-- ==== Sys2Proof/Safety.lean ====
section
/-! DEFINITION. The terms claims use: what a step leaves unchanged, what a reachable state is, the invariants,
the end of a run, and the named host premises. -/

namespace Sys2Proof.Machine

open Sys2Proof

/-- The pieces of state, one for each field of `State`. -/
inductive Part where
  | v | i | pc | sp | stack | dt | st | keys | display | mem | faulted | draws
  deriving DecidableEq, Repr

/-- Whether a piece reads the same in two states. Registers, stack slots, keys, pixels and memory bytes are
compared one by one through the model's own reads. -/
def Part.same : Part → State → State → Prop
  | .v, s, t => ∀ r : Reg, t.readV r = s.readV r
  | .i, s, t => t.i = s.i
  | .pc, s, t => t.pc = s.pc
  | .sp, s, t => t.sp = s.sp
  | .stack, s, t => ∀ j : Fin 16, t.stack[j.val] = s.stack[j.val]
  | .dt, s, t => t.dt = s.dt
  | .st, s, t => t.st = s.st
  | .keys, s, t => ∀ k : Fin 16, t.key k = s.key k
  | .display, s, t => ∀ (x : Fin 64) (y : Fin 32), t.display.pixel x y = s.display.pixel x y
  | .mem, s, t => ∀ a : Nat, t.mem.read a = s.mem.read a
  | .faulted, s, t => t.faulted = s.faulted
  | .draws, s, t => t.draws = s.draws

/-- The frame: every piece but the named ones is unchanged. -/
def OnlyChanges (changed : List Part) (s t : State) : Prop := ∀ p : Part, p ∉ changed → p.same s t

/-- Every register outside the list is unchanged. -/
def RegsUnchangedBut (rs : List Reg) (s t : State) : Prop := ∀ r : Reg, r ∉ rs → t.readV r = s.readV r

/-! ### What each instruction may change, as the spec tabulates it -/

/-- The pieces of state an instruction's rule names besides `pc` and the faulted status (10_state.md R17, R18, R22,
R26, R28; 20_memory.md R47; 40_cycle.md R77). -/
def changesOf : Instr → List Part
  | .cls => [.display]
  | .ret => [.sp]
  | .jp _ => []
  | .call _ => [.sp, .stack]
  | .seImm _ _ => []
  | .sneImm _ _ => []
  | .seReg _ _ => []
  | .ldImm _ _ => [.v]
  | .addImm _ _ => [.v]
  | .ldReg _ _ => [.v]
  | .orReg _ _ => [.v]
  | .andReg _ _ => [.v]
  | .xorReg _ _ => [.v]
  | .addReg _ _ => [.v]
  | .sub _ _ => [.v]
  | .shr _ _ => [.v]
  | .subn _ _ => [.v]
  | .shl _ _ => [.v]
  | .sneReg _ _ => []
  | .ldI _ => [.i]
  | .jpV0 _ => []
  | .rnd _ _ => [.v, .draws]
  | .drw _ _ _ => [.v, .display]
  | .skp _ => []
  | .sknp _ => []
  | .ldVxDt _ => [.v]
  | .ldVxK _ => [.v]
  | .ldDtVx _ => [.dt]
  | .ldStVx _ => [.st]
  | .addI _ => [.i]
  | .ldF _ => [.i]
  | .ldB _ => [.mem]
  | .ldMemVx _ => [.mem]
  | .ldVxMem _ => [.v]

/-- The general registers an instruction writes (the table of 10_state.md R17). -/
def writesReg : Instr → Reg → Bool
  | .cls, _ => false
  | .ret, _ => false
  | .jp _, _ => false
  | .call _, _ => false
  | .seImm _ _, _ => false
  | .sneImm _ _, _ => false
  | .seReg _ _, _ => false
  | .ldImm x _, r => r = x
  | .addImm x _, r => r = x
  | .ldReg x _, r => r = x
  | .orReg x _, r => r = x
  | .andReg x _, r => r = x
  | .xorReg x _, r => r = x
  | .addReg x _, r => r = x || r = VF
  | .sub x _, r => r = x || r = VF
  | .shr x _, r => r = x || r = VF
  | .subn x _, r => r = x || r = VF
  | .shl x _, r => r = x || r = VF
  | .sneReg _ _, _ => false
  | .ldI _, _ => false
  | .jpV0 _, _ => false
  | .rnd x _, r => r = x
  | .drw _ _ _, r => r = VF
  | .skp _, _ => false
  | .sknp _, _ => false
  | .ldVxDt x, r => r = x
  | .ldVxK x, r => r = x
  | .ldDtVx _, _ => false
  | .ldStVx _, _ => false
  | .addI _, _ => false
  | .ldF _, _ => false
  | .ldB _, _ => false
  | .ldMemVx _, _ => false
  | .ldVxMem x, r => r ≤ x

/-- The explicit control-flow transfers: the four jumps and the six conditional skips (40_cycle.md R74, R75). The
other 24 instructions end with `pc <- pc + 2` (R73). -/
def setsPc : Instr → Bool
  | .cls => false
  | .ret => true
  | .jp _ => true
  | .call _ => true
  | .seImm _ _ => true
  | .sneImm _ _ => true
  | .seReg _ _ => true
  | .ldImm _ _ => false
  | .addImm _ _ => false
  | .ldReg _ _ => false
  | .orReg _ _ => false
  | .andReg _ _ => false
  | .xorReg _ _ => false
  | .addReg _ _ => false
  | .sub _ _ => false
  | .shr _ _ => false
  | .subn _ _ => false
  | .shl _ _ => false
  | .sneReg _ _ => true
  | .ldI _ => false
  | .jpV0 _ => true
  | .rnd _ _ => false
  | .drw _ _ _ => false
  | .skp _ => true
  | .sknp _ => true
  | .ldVxDt _ => false
  | .ldVxK _ => false
  | .ldDtVx _ => false
  | .ldStVx _ => false
  | .addI _ => false
  | .ldF _ => false
  | .ldB _ => false
  | .ldMemVx _ => false
  | .ldVxMem _ => false

/-- A set bit of the sprite of `DRW Vx, Vy, n` maps to the pixel: some row below `n` and some column below 8, whose
bit is set, land on it with wrapping (41_display.md R79). -/
def SpriteCovers (s : State) (x y : Reg) (n : Nat) (px : Fin 64) (py : Fin 32) : Prop :=
  ∃ row col : Nat, row < n ∧ col < 8 ∧ (s.mem.read (s.i.toNat + row)).getLsbD (7 - col) = true ∧
    ((s.readV x).toNat + col) % 64 = px.val ∧ ((s.readV y).toNat + row) % 32 = py.val

/-- The word a fetch at the `pc` assembles, high byte first (20_memory.md R44). -/
def State.wordAtPc (s : State) : Word := s.mem.read s.pc.toNat ++ s.mem.read (s.pc.toNat + 1)

/-! ### Reachable states and invariants -/

/-- The states a driver can bring the block to, by any schedule (60_exceptions.md R132, R133), from a fresh
machine whose `FONT` is the given one and whose random source is in any state. -/
inductive Reachable (font : Config.Font) : State → Prop where
  | constructed (k : Nat) : Reachable font { State.construct font with draws := k }
  | operated {s t : State} {r : Reply} (o : HostOp) :
      Reachable font s → hostOp font o s = .next (t, r) → Reachable font t

/-- Memory has its canonical form. -/
def MemoryCanonical (s : State) : Prop := s.mem.wf = true

/-- `pc` is at most 0x10FE and every return address on the stack is one a `CALL` can be fetched from
(10_state.md R20). -/
def PcBounded (s : State) : Prop :=
  s.pc.toNat ≤ 0x10FE ∧ ∀ j : Fin 16, j.val < s.sp.val → (s.stack[j.val]).toNat ≤ 0xFFE

/-- Two states that differ at most in the stale stack slots `S[SP..15]` (10_state.md R34). -/
def SameButStaleSlots (s t : State) : Prop :=
  (∀ j : Fin 16, j.val < s.sp.val → t.stack[j.val] = s.stack[j.val]) ∧ t = { s with stack := t.stack }

/-- A run has ended: no fault is recorded and `pc` holds the address of a self-jump (70_reset_and_hazards.md
R149). -/
def State.ended (s : State) : Prop :=
  s.faulted = none ∧ s.pc.toNat ≤ 0xFFE ∧
    s.mem.read s.pc.toNat = 0x10#8 ||| (s.pc >>> 8).truncate 8 ∧
    s.mem.read (s.pc.toNat + 1) = s.pc.truncate 8

/-- A safe run so far: no fatal condition is recorded (60_exceptions.md R122). -/
def State.faultFree (s : State) : Prop := s.faulted = none

/-- An infinite schedule and the states it goes through, each operation from the state before it. -/
def IsTrace (font : Config.Font) (schedule : Nat → HostOp) (trace : Nat → State) : Prop :=
  ∀ n, ∃ r, hostOp font (schedule n) (trace n) = .next (trace (n + 1), r)

/-- The premise `HOST_TICKS`: `tickTimers` is called infinitely often (70_reset_and_hazards.md R146). -/
def HostTicks (schedule : Nat → HostOp) : Prop := ∀ n, ∃ m, n ≤ m ∧ schedule m = .tickTimers

/-- The premise `HOST_PRESSES_KEY`: whenever the program waits for a key, some key is pressed at a later step
(70_reset_and_hazards.md R146; 92_eei_decisions.md D18). -/
def HostPressesKey (schedule : Nat → HostOp) (trace : Nat → State) : Prop :=
  ∀ n, (trace n).waits = true → ∃ m, n ≤ m ∧ schedule m = .step ∧ ((trace m).lowestPressed).isSome = true

end Sys2Proof.Machine
end

