-- ==== Sys2Proof/WellFormed.lean ====
section
/-! DEFINITION. Well-formedness of what the driver hands the block. An instruction needs no check: every field
of `Instr` has exactly the width of its encoding field, so every term of `Instr` is well-formed (10_state.md R15;
30_encoding.md R57, R58). What carries a bound that its type does not is a key identifier and a program
image. -/

namespace Sys2Proof

/-- A key identifier lies in the closed set 0 to 15 (60_exceptions.md R127). -/
def wfKeyId (k : Nat) : Bool := decide (k < 16)

/-- A program image fits between the origin 0x200 and the end of memory: at most 3584 bytes
(70_reset_and_hazards.md R141). -/
def wfImage (bytes : List Byte) : Bool := decide (bytes.length ≤ 3584)

end Sys2Proof
end

