-- ==== Sys2Proof/Certificates/Slice0/Obligations.lean ====
section
/-! DEFINITION. The statements for the provers. Each docstring names the rules of spec/ it formalises. The fields of
an instruction word are given as numbers (`0x8004 + 256 * x + 16 * y`), independently of the decoder's own
functions; a raised fatal condition is given as the record it leaves. -/

open Sys2Proof Sys2Proof.Machine

/-! ### Decoding and encoding -/

/-- 30_encoding.md R60: one word of every row of the table, written out from its encoding, decodes to its
instruction. The encodings are the conventional ones (D21). -/
def Obligations.WrittenOutWordsDecode : Prop :=
  decode 0x00E0 = .instr .cls ∧ decode 0x00EE = .instr .ret ∧ decode 0x1300 = .instr (.jp 0x300) ∧
  decode 0x2210 = .instr (.call 0x210) ∧ decode 0x3342 = .instr (.seImm 3 0x42) ∧
  decode 0x4342 = .instr (.sneImm 3 0x42) ∧ decode 0x5120 = .instr (.seReg 1 2) ∧
  decode 0x65AB = .instr (.ldImm 5 0xAB) ∧ decode 0x7203 = .instr (.addImm 2 0x03) ∧
  decode 0x8120 = .instr (.ldReg 1 2) ∧ decode 0x8121 = .instr (.orReg 1 2) ∧
  decode 0x8122 = .instr (.andReg 1 2) ∧ decode 0x8123 = .instr (.xorReg 1 2) ∧
  decode 0x8124 = .instr (.addReg 1 2) ∧ decode 0x8125 = .instr (.sub 1 2) ∧
  decode 0x8126 = .instr (.shr 1 2) ∧ decode 0x8127 = .instr (.subn 1 2) ∧
  decode 0x812E = .instr (.shl 1 2) ∧ decode 0x9120 = .instr (.sneReg 1 2) ∧
  decode 0xA123 = .instr (.ldI 0x123) ∧ decode 0xB300 = .instr (.jpV0 0x300) ∧
  decode 0xC30F = .instr (.rnd 3 0x0F) ∧ decode 0xD015 = .instr (.drw 0 1 5) ∧
  decode 0xE09E = .instr (.skp 0) ∧ decode 0xE0A1 = .instr (.sknp 0) ∧
  decode 0xF007 = .instr (.ldVxDt 0) ∧ decode 0xF30A = .instr (.ldVxK 3) ∧
  decode 0xF115 = .instr (.ldDtVx 1) ∧ decode 0xF218 = .instr (.ldStVx 2) ∧
  decode 0xF11E = .instr (.addI 1) ∧ decode 0xF229 = .instr (.ldF 2) ∧
  decode 0xF033 = .instr (.ldB 0) ∧ decode 0xF255 = .instr (.ldMemVx 2) ∧
  decode 0xF265 = .instr (.ldVxMem 2)

/-- Decoding the word of any instruction gives the instruction back, with every operand at every value the
encoding admits (30_encoding.md R56 to R61). Every term of `Instr` is well-formed. -/
def Obligations.DecodeOfEncodeGivesTheInstruction : Prop :=
  ∀ i : Instr, decode (encode i) = .instr i

/-- A word that decodes to an instruction is that instruction's word: no bit of it is dropped, the don't-care `y` of
the shifts among them (30_encoding.md R60, R61). -/
def Obligations.EncodeOfDecodeGivesTheWord : Prop :=
  ∀ (w : Word) (i : Instr), decode w = .instr i → encode i = w

/-- 30_encoding.md R60: the table has 34 rows, no word is accepted by two of them, a word that decodes to an
instruction is accepted by that instruction's row, and an `Unknown` word by none. -/
def Obligations.DecoderAgreesWithTheOpcodeTable : Prop :=
  opcodeTable.length = 34 ∧
  (∀ (w : Word) (r q : OpcodeRow), r ∈ opcodeTable → q ∈ opcodeTable →
    r.accepts w = true → q.accepts w = true → r = q) ∧
  (∀ (w : Word) (i : Instr), decode w = .instr i → i.row ∈ opcodeTable ∧ i.row.accepts w = true) ∧
  (∀ w : Word, decode w = .unknown → ∀ r ∈ opcodeTable, r.accepts w = false)

/-- 30_encoding.md R62, the table of illegal sets: the words that decode as `Unknown`, by their digits. -/
def Obligations.UnknownWordsAreTheSixIllegalSets : Prop :=
  ∀ w : Word, decode w = .unknown ↔
    (w.toNat / 0x1000 = 0x0 ∧ w.toNat ≠ 0x00E0 ∧ w.toNat ≠ 0x00EE) ∨
    (w.toNat / 0x1000 = 0x5 ∧ w.toNat % 16 ≠ 0) ∨
    (w.toNat / 0x1000 = 0x8 ∧ w.toNat % 16 ∈ [0x8, 0x9, 0xA, 0xB, 0xC, 0xD, 0xF]) ∨
    (w.toNat / 0x1000 = 0x9 ∧ w.toNat % 16 ≠ 0) ∨
    (w.toNat / 0x1000 = 0xE ∧ w.toNat % 256 ∉ [0x9E, 0xA1]) ∨
    (w.toNat / 0x1000 = 0xF ∧ w.toNat % 256 ∉ [0x07, 0x0A, 0x15, 0x18, 0x1E, 0x29, 0x33, 0x55, 0x65])

/-! ### The instruction cycle -/

/-- 40_cycle.md R68, R72: a step runs the decoded instruction. Where no fault is recorded and the two bytes at `pc`
and `pc + 1`, high byte first, decode to an instruction, the step is `exec` of it at that same state: the model's
step adds nothing around `exec`. -/
def Obligations.StepRunsTheDecodedInstruction : Prop :=
  ∀ (s : State) (i : Instr), s.faulted = none → s.pc.toNat + 1 < 4096 → decode s.wordAtPc = .instr i →
    step s = exec i s

/-- 40_cycle.md R69, R70, R71: a faulted state has no step; a fetch with `pc + 1 >= 4096` raises
`MemoryOutOfRange(max(pc, 4096))`; an `Unknown` word raises `UnknownOpcode(w)`; each raise changes nothing but the
faulted status; and no alignment is asked of `pc`. -/
def Obligations.StepFetchesDecodesOrStops : Prop :=
  (∀ (s : State) (f : Fault), s.faulted = some f → step s = .refused (.faultedStatus f)) ∧
  (∀ s : State, s.faulted = none → 4096 ≤ s.pc.toNat + 1 →
    step s = .next { s with faulted := some (.memoryOutOfRange (max s.pc.toNat 4096)) }) ∧
  (∀ s : State, s.faulted = none → s.pc.toNat + 1 < 4096 → decode s.wordAtPc = .unknown →
    step s = .next { s with faulted := some (.unknownOpcode s.wordAtPc) }) ∧
  (∀ (s : State) (i : Instr), s.faulted = none → s.pc.toNat + 1 < 4096 → decode s.wordAtPc = .instr i →
    step s = exec i s)

/-- 42_control_flow.md R90: a word `0nnn` other than `00E0` and `00EE`, fetched at any `pc`, decodes as `Unknown` and
raises `UnknownOpcode(w)`, which leaves the state as it was but for the faulted status. -/
def Obligations.SysWordsFault : Prop :=
  ∀ s : State, s.faulted = none → s.pc.toNat + 1 < 4096 → s.wordAtPc.toNat < 0x1000 →
    s.wordAtPc.toNat ≠ 0x00E0 → s.wordAtPc.toNat ≠ 0x00EE →
    decode s.wordAtPc = .unknown ∧
    step s = .next { s with faulted := some (.unknownOpcode s.wordAtPc) }

/-- The model's interface (log entry 7): from any state, `withFetchWord` makes the very next step run the instruction
of the table word. -/
def Obligations.WithFetchWordRunsTheWord : Prop :=
  ∀ (s : State) (w : Nat) (i : Instr), decodeTableWord 16 w = some i →
    step (s.withFetchWord 16 w) = exec i (s.withFetchWord 16 w)

/-! ### Display -/

/-- 41_display.md R78: `CLS`. -/
def Obligations.ClsUnlightsEveryPixel : Prop :=
  (∀ w : Word, w.toNat = 0x00E0 → decode w = .instr .cls) ∧
  ∀ s : State, ∃ t : State, exec .cls s = .next t ∧
    (∀ (x : Fin 64) (y : Fin 32), t.display.pixel x y = false) ∧ t.pc = s.pc + 2 ∧
    OnlyChanges [.display, .pc] s t

/-- 41_display.md R79: `DRW Vx, Vy, n`. A covered pixel is toggled and every other one left alone; `VF` is 1 exactly
when a covered pixel was lit; `n = 0` never faults; and an access past the end of memory raises, with nothing
drawn. The sprite bit order is D11. -/
def Obligations.DrwXorsTheSpriteAndReportsCollision : Prop :=
  (∀ (w : Word) (x y : Reg) (n : Fin 16), w.toNat = 0xD000 + 256 * x.val + 16 * y.val + n.val →
    decode w = .instr (.drw x y n)) ∧
  (∀ (s : State) (x y : Reg) (n : Fin 16), n.val = 0 ∨ s.i.toNat + n.val ≤ 4096 →
    ∃ t : State, exec (.drw x y n) s = .next t ∧
      (∀ (px : Fin 64) (py : Fin 32),
        (SpriteCovers s x y n.val px py → t.display.pixel px py = !s.display.pixel px py) ∧
        (¬SpriteCovers s x y n.val px py → t.display.pixel px py = s.display.pixel px py)) ∧
      ((∃ (px : Fin 64) (py : Fin 32), SpriteCovers s x y n.val px py ∧ s.display.pixel px py = true) →
        t.readV VF = 1) ∧
      ((¬∃ (px : Fin 64) (py : Fin 32), SpriteCovers s x y n.val px py ∧ s.display.pixel px py = true) →
        t.readV VF = 0) ∧
      t.pc = s.pc + 2 ∧ RegsUnchangedBut [VF] s t ∧ OnlyChanges [.display, .v, .pc] s t) ∧
  (∀ (s : State) (x y : Reg) (n : Fin 16), 0 < n.val → 4096 < s.i.toNat + n.val →
    exec (.drw x y n) s = .next { s with faulted := some (.memoryOutOfRange (max s.i.toNat 4096)) })

/-- 41_display.md R80 (derived there): drawing the same sprite twice at the same place restores the display, and the
second draw sets `VF` exactly when a covered pixel was unlit before the first. The coordinates are the same for
both draws when neither is held in `VF`. -/
def Obligations.DrawingTwiceRestoresTheDisplay : Prop :=
  ∀ (s : State) (x y : Reg) (n : Fin 16), x ≠ VF → y ≠ VF → n.val = 0 ∨ s.i.toNat + n.val ≤ 4096 →
    ∃ t u : State, exec (.drw x y n) s = .next t ∧ exec (.drw x y n) t = .next u ∧
      u.display = s.display ∧
      ((∃ (px : Fin 64) (py : Fin 32), SpriteCovers s x y n.val px py ∧ s.display.pixel px py = false) →
        u.readV VF = 1) ∧
      ((¬∃ (px : Fin 64) (py : Fin 32), SpriteCovers s x y n.val px py ∧ s.display.pixel px py = false) →
        u.readV VF = 0)

/-! ### Control flow -/

/-- 42_control_flow.md R81: `RET`. The popped slot is not cleared. -/
def Obligations.RetPopsThePc : Prop :=
  (∀ w : Word, w.toNat = 0x00EE → decode w = .instr .ret) ∧
  (∀ (s : State) (n : Fin 16), s.sp.val = n.val + 1 →
    ∃ t : State, exec .ret s = .next t ∧ t.pc = s.stack[n.val] ∧ t.sp.val = n.val ∧ OnlyChanges [.pc, .sp] s t) ∧
  (∀ s : State, s.sp.val = 0 → exec .ret s = .next { s with faulted := some (.stackUnderflow s.pc) })

/-- 42_control_flow.md R82: `JP nnn`. -/
def Obligations.JpSetsThePc : Prop :=
  (∀ (w : Word) (nnn : Addr12), w.toNat = 0x1000 + nnn.toNat → decode w = .instr (.jp nnn)) ∧
  ∀ (s : State) (nnn : Addr12), ∃ t : State, exec (.jp nnn) s = .next t ∧
    t.pc.toNat = nnn.toNat ∧ OnlyChanges [.pc] s t

/-- 42_control_flow.md R83: `CALL nnn`. The pushed value is the address of the `CALL` itself, not `pc + 2`. -/
def Obligations.CallPushesItsOwnAddress : Prop :=
  (∀ (w : Word) (nnn : Addr12), w.toNat = 0x2000 + nnn.toNat → decode w = .instr (.call nnn)) ∧
  (∀ (s : State) (nnn : Addr12), s.sp.val < 16 →
    ∃ t : State, exec (.call nnn) s = .next t ∧ t.pc.toNat = nnn.toNat ∧ t.sp.val = s.sp.val + 1 ∧
      (∀ j : Fin 16, t.stack[j.val] = if j.val = s.sp.val then s.pc else s.stack[j.val]) ∧
      OnlyChanges [.pc, .sp, .stack] s t) ∧
  (∀ (s : State) (nnn : Addr12), s.sp.val = 16 →
    exec (.call nnn) s = .next { s with faulted := some (.stackOverflow s.pc) })

/-- 42_control_flow.md R84 (derived there): a call followed by a return restores `pc` and `SP` to their pre-call
values; only a stale stack slot may differ. -/
def Obligations.CallThenRetComesBackToTheCall : Prop :=
  ∀ (s : State) (nnn : Addr12), s.sp.val < 16 →
    ∃ t u : State, exec (.call nnn) s = .next t ∧ exec .ret t = .next u ∧ u.pc = s.pc ∧ u.sp = s.sp ∧
      SameButStaleSlots s u

/-- 42_control_flow.md R85, R86: `SE Vx, kk` and `SNE Vx, kk`. -/
def Obligations.ImmediateSkips : Prop :=
  (∀ (w : Word) (x : Reg) (kk : Byte), w.toNat = 0x3000 + 256 * x.val + kk.toNat →
    decode w = .instr (.seImm x kk)) ∧
  (∀ (w : Word) (x : Reg) (kk : Byte), w.toNat = 0x4000 + 256 * x.val + kk.toNat →
    decode w = .instr (.sneImm x kk)) ∧
  ∀ (s : State) (x : Reg) (kk : Byte),
    (∃ t : State, exec (.seImm x kk) s = .next t ∧
      t.pc = (if s.readV x = kk then s.pc + 4 else s.pc + 2) ∧ OnlyChanges [.pc] s t) ∧
    (∃ t : State, exec (.sneImm x kk) s = .next t ∧
      t.pc = (if s.readV x = kk then s.pc + 2 else s.pc + 4) ∧ OnlyChanges [.pc] s t)

/-- 42_control_flow.md R87, R88: `SE Vx, Vy` and `SNE Vx, Vy`; the low nibble must be 0. -/
def Obligations.RegisterSkips : Prop :=
  (∀ (w : Word) (x y : Reg), w.toNat = 0x5000 + 256 * x.val + 16 * y.val → decode w = .instr (.seReg x y)) ∧
  (∀ (w : Word) (x y : Reg), w.toNat = 0x9000 + 256 * x.val + 16 * y.val → decode w = .instr (.sneReg x y)) ∧
  (∀ w : Word, w.toNat / 0x1000 = 0x5 ∨ w.toNat / 0x1000 = 0x9 → w.toNat % 16 ≠ 0 → decode w = .unknown) ∧
  ∀ (s : State) (x y : Reg),
    (∃ t : State, exec (.seReg x y) s = .next t ∧
      t.pc = (if s.readV x = s.readV y then s.pc + 4 else s.pc + 2) ∧ OnlyChanges [.pc] s t) ∧
    (∃ t : State, exec (.sneReg x y) s = .next t ∧
      t.pc = (if s.readV x = s.readV y then s.pc + 2 else s.pc + 4) ∧ OnlyChanges [.pc] s t)

/-- 42_control_flow.md R89: `JP V0, nnn`, an exact sum whatever the top nibble of `nnn` holds. -/
def Obligations.JpV0AddsExactly : Prop :=
  (∀ (w : Word) (nnn : Addr12), w.toNat = 0xB000 + nnn.toNat → decode w = .instr (.jpV0 nnn)) ∧
  ∀ (s : State) (nnn : Addr12), ∃ t : State, exec (.jpV0 nnn) s = .next t ∧
    t.pc.toNat = (s.readV 0).toNat + nnn.toNat ∧ t.pc.toNat ≤ 0x10FE ∧ OnlyChanges [.pc] s t

/-! ### Register loads and the arithmetic-logic group -/

/-- 43_register_alu.md R92, R94: `LD Vx, kk` and `LD Vx, Vy`, `VF` being a plain register. -/
def Obligations.RegisterLoads : Prop :=
  (∀ (w : Word) (x : Reg) (kk : Byte), w.toNat = 0x6000 + 256 * x.val + kk.toNat →
    decode w = .instr (.ldImm x kk)) ∧
  (∀ (w : Word) (x y : Reg), w.toNat = 0x8000 + 256 * x.val + 16 * y.val → decode w = .instr (.ldReg x y)) ∧
  (∀ (s : State) (x : Reg) (kk : Byte), ∃ t : State, exec (.ldImm x kk) s = .next t ∧ t.readV x = kk ∧
    t.pc = s.pc + 2 ∧ RegsUnchangedBut [x] s t ∧ OnlyChanges [.v, .pc] s t) ∧
  (∀ (s : State) (x y : Reg), ∃ t : State, exec (.ldReg x y) s = .next t ∧ t.readV x = s.readV y ∧
    t.pc = s.pc + 2 ∧ RegsUnchangedBut [x] s t ∧ OnlyChanges [.v, .pc] s t)

/-- 43_register_alu.md R93: `ADD Vx, kk` modulo 256, with no carry recorded. -/
def Obligations.AddImmediateWrapsWithoutAFlag : Prop :=
  (∀ (w : Word) (x : Reg) (kk : Byte), w.toNat = 0x7000 + 256 * x.val + kk.toNat →
    decode w = .instr (.addImm x kk)) ∧
  ∀ (s : State) (x : Reg) (kk : Byte), ∃ t : State, exec (.addImm x kk) s = .next t ∧
    (t.readV x).toNat = ((s.readV x).toNat + kk.toNat) % 256 ∧ t.pc = s.pc + 2 ∧
    RegsUnchangedBut [x] s t ∧ OnlyChanges [.v, .pc] s t

/-- 43_register_alu.md R95, R96, R97: `OR`, `AND` and `XOR`, bit by bit, with no flag. -/
def Obligations.BitwiseOperations : Prop :=
  (∀ (w : Word) (x y : Reg), w.toNat = 0x8001 + 256 * x.val + 16 * y.val → decode w = .instr (.orReg x y)) ∧
  (∀ (w : Word) (x y : Reg), w.toNat = 0x8002 + 256 * x.val + 16 * y.val → decode w = .instr (.andReg x y)) ∧
  (∀ (w : Word) (x y : Reg), w.toNat = 0x8003 + 256 * x.val + 16 * y.val → decode w = .instr (.xorReg x y)) ∧
  ∀ (s : State) (x y : Reg),
    (∃ t : State, exec (.orReg x y) s = .next t ∧
      (∀ k : Fin 8, (t.readV x).getLsbD k.val = ((s.readV x).getLsbD k.val || (s.readV y).getLsbD k.val)) ∧
      t.pc = s.pc + 2 ∧ RegsUnchangedBut [x] s t ∧ OnlyChanges [.v, .pc] s t) ∧
    (∃ t : State, exec (.andReg x y) s = .next t ∧
      (∀ k : Fin 8, (t.readV x).getLsbD k.val = ((s.readV x).getLsbD k.val && (s.readV y).getLsbD k.val)) ∧
      t.pc = s.pc + 2 ∧ RegsUnchangedBut [x] s t ∧ OnlyChanges [.v, .pc] s t) ∧
    (∃ t : State, exec (.xorReg x y) s = .next t ∧
      (∀ k : Fin 8, (t.readV x).getLsbD k.val = ((s.readV x).getLsbD k.val ^^ (s.readV y).getLsbD k.val)) ∧
      t.pc = s.pc + 2 ∧ RegsUnchangedBut [x] s t ∧ OnlyChanges [.v, .pc] s t)

/-- 43_register_alu.md R98: `ADD Vx, Vy` and its carry, on the exact sum; with `x = 15`, `VF` ends as the carry. -/
def Obligations.AddSetsTheCarry : Prop :=
  (∀ (w : Word) (x y : Reg), w.toNat = 0x8004 + 256 * x.val + 16 * y.val → decode w = .instr (.addReg x y)) ∧
  ∀ (s : State) (x y : Reg), ∃ t : State, exec (.addReg x y) s = .next t ∧
    (x ≠ VF → (t.readV x).toNat = ((s.readV x).toNat + (s.readV y).toNat) % 256) ∧
    t.readV VF = (if (s.readV x).toNat + (s.readV y).toNat > 255 then 1 else 0) ∧
    t.pc = s.pc + 2 ∧ RegsUnchangedBut [x, VF] s t ∧ OnlyChanges [.v, .pc] s t

/-- 43_register_alu.md R99, R101: `SUB` and `SUBN`, whose flag means "no borrow"; with `x = 15`, `VF` ends as the
flag. -/
def Obligations.SubtractionsSetNoBorrow : Prop :=
  (∀ (w : Word) (x y : Reg), w.toNat = 0x8005 + 256 * x.val + 16 * y.val → decode w = .instr (.sub x y)) ∧
  (∀ (w : Word) (x y : Reg), w.toNat = 0x8007 + 256 * x.val + 16 * y.val → decode w = .instr (.subn x y)) ∧
  ∀ (s : State) (x y : Reg),
    (∃ t : State, exec (.sub x y) s = .next t ∧
      (x ≠ VF → (t.readV x).toNat = ((s.readV x).toNat + 256 - (s.readV y).toNat) % 256) ∧
      t.readV VF = (if (s.readV x).toNat ≥ (s.readV y).toNat then 1 else 0) ∧
      t.pc = s.pc + 2 ∧ RegsUnchangedBut [x, VF] s t ∧ OnlyChanges [.v, .pc] s t) ∧
    (∃ t : State, exec (.subn x y) s = .next t ∧
      (x ≠ VF → (t.readV x).toNat = ((s.readV y).toNat + 256 - (s.readV x).toNat) % 256) ∧
      t.readV VF = (if (s.readV y).toNat ≥ (s.readV x).toNat then 1 else 0) ∧
      t.pc = s.pc + 2 ∧ RegsUnchangedBut [x, VF] s t ∧ OnlyChanges [.v, .pc] s t)

/-- 43_register_alu.md R100: `SHR Vx`. `V[y]` is not read; with `x = 15` the value of `VF` is the one the open
parameter `SHIFT_FLAG_ORDER` gives, and nothing is assumed of that parameter. -/
def Obligations.ShrShiftsRightIntoVf : Prop :=
  (∀ (w : Word) (x y : Reg), w.toNat = 0x8006 + 256 * x.val + 16 * y.val → decode w = .instr (.shr x y)) ∧
  (∀ (s : State) (x y y' : Reg), exec (.shr x y) s = exec (.shr x y') s) ∧
  ∀ (s : State) (x y : Reg), ∃ t : State, exec (.shr x y) s = .next t ∧
    (x ≠ VF → (t.readV x).toNat = (s.readV x).toNat / 2 ∧ (t.readV VF).toNat = (s.readV x).toNat % 2) ∧
    (x = VF → (t.readV VF).toNat =
      match Config.shiftFlagOrder with
      | .flagLast => (s.readV x).toNat % 2
      | .flagFirst => 0) ∧
    t.pc = s.pc + 2 ∧ RegsUnchangedBut [x, VF] s t ∧ OnlyChanges [.v, .pc] s t

/-- 43_register_alu.md R102: `SHL Vx`. `V[y]` is not read; with `x = 15` the value of `VF` is the one the open
parameter `SHIFT_FLAG_ORDER` gives, and nothing is assumed of that parameter. -/
def Obligations.ShlShiftsLeftIntoVf : Prop :=
  (∀ (w : Word) (x y : Reg), w.toNat = 0x800E + 256 * x.val + 16 * y.val → decode w = .instr (.shl x y)) ∧
  (∀ (s : State) (x y y' : Reg), exec (.shl x y) s = exec (.shl x y') s) ∧
  ∀ (s : State) (x y : Reg), ∃ t : State, exec (.shl x y) s = .next t ∧
    (x ≠ VF → (t.readV x).toNat = (s.readV x).toNat * 2 % 256 ∧ (t.readV VF).toNat = (s.readV x).toNat / 128) ∧
    (x = VF → (t.readV VF).toNat =
      match Config.shiftFlagOrder with
      | .flagLast => (s.readV x).toNat / 128
      | .flagFirst => 2 * ((s.readV x).toNat / 128)) ∧
    t.pc = s.pc + 2 ∧ RegsUnchangedBut [x, VF] s t ∧ OnlyChanges [.v, .pc] s t

/-! ### Address register, random source, timers -/

/-- 44_address_register.md R103, R104, R105: `LD I, nnn`, `ADD I, Vx` (modulo 2^16, no flag) and `LD F, Vx` (times 5,
not masked). -/
def Obligations.AddressRegisterInstructions : Prop :=
  (∀ (w : Word) (nnn : Addr12), w.toNat = 0xA000 + nnn.toNat → decode w = .instr (.ldI nnn)) ∧
  (∀ (w : Word) (x : Reg), w.toNat = 0xF01E + 256 * x.val → decode w = .instr (.addI x)) ∧
  (∀ (w : Word) (x : Reg), w.toNat = 0xF029 + 256 * x.val → decode w = .instr (.ldF x)) ∧
  (∀ (s : State) (nnn : Addr12), ∃ t : State, exec (.ldI nnn) s = .next t ∧ t.i.toNat = nnn.toNat ∧
    t.pc = s.pc + 2 ∧ OnlyChanges [.i, .pc] s t) ∧
  (∀ (s : State) (x : Reg), ∃ t : State, exec (.addI x) s = .next t ∧
    t.i.toNat = (s.i.toNat + (s.readV x).toNat) % 65536 ∧ t.pc = s.pc + 2 ∧ OnlyChanges [.i, .pc] s t) ∧
  (∀ (s : State) (x : Reg), ∃ t : State, exec (.ldF x) s = .next t ∧
    t.i.toNat = (s.readV x).toNat * 5 ∧ t.pc = s.pc + 2 ∧ OnlyChanges [.i, .pc] s t)

/-- `RND Vx, kk` (45_random_timers.md R106). That the draw is `Config.rngDraw` of the counter `draws`, and that the
counter goes up by one, is the model's own choice (log entry 2, DESIGN CHOICE), which the spec does not give: the
draw is a free value and nothing is assumed of it. What the spec gives is the mask, the destination and `pc`. -/
def Obligations.RndMasksOneFreshDraw : Prop :=
  (∀ (w : Word) (x : Reg) (kk : Byte), w.toNat = 0xC000 + 256 * x.val + kk.toNat → decode w = .instr (.rnd x kk)) ∧
  ∀ (s : State) (x : Reg) (kk : Byte), ∃ t : State, exec (.rnd x kk) s = .next t ∧
    t.readV x = Config.rngDraw s.draws &&& kk ∧ t.draws = s.draws + 1 ∧
    (∀ k : Fin 8, kk.getLsbD k.val = false → (t.readV x).getLsbD k.val = false) ∧
    t.pc = s.pc + 2 ∧ RegsUnchangedBut [x] s t ∧ OnlyChanges [.v, .pc, .draws] s t

/-- 45_random_timers.md R107, R108, R109: `LD Vx, DT`, `LD DT, Vx`, `LD ST, Vx`. -/
def Obligations.TimerInstructions : Prop :=
  (∀ (w : Word) (x : Reg), w.toNat = 0xF007 + 256 * x.val → decode w = .instr (.ldVxDt x)) ∧
  (∀ (w : Word) (x : Reg), w.toNat = 0xF015 + 256 * x.val → decode w = .instr (.ldDtVx x)) ∧
  (∀ (w : Word) (x : Reg), w.toNat = 0xF018 + 256 * x.val → decode w = .instr (.ldStVx x)) ∧
  ∀ (s : State) (x : Reg),
    (∃ t : State, exec (.ldVxDt x) s = .next t ∧ t.readV x = s.dt ∧ t.pc = s.pc + 2 ∧
      RegsUnchangedBut [x] s t ∧ OnlyChanges [.v, .pc] s t) ∧
    (∃ t : State, exec (.ldDtVx x) s = .next t ∧ t.dt = s.readV x ∧ t.pc = s.pc + 2 ∧
      OnlyChanges [.dt, .pc] s t) ∧
    (∃ t : State, exec (.ldStVx x) s = .next t ∧ t.st = s.readV x ∧ t.pc = s.pc + 2 ∧
      OnlyChanges [.st, .pc] s t)

/-! ### Keypad -/

/-- 46_keypad.md R110, R111, R112: `SKP Vx` and `SKNP Vx`, with complementary conditions, and the fault of an index
above 15 (D7). -/
def Obligations.KeySkips : Prop :=
  (∀ (w : Word) (x : Reg), w.toNat = 0xE09E + 256 * x.val → decode w = .instr (.skp x)) ∧
  (∀ (w : Word) (x : Reg), w.toNat = 0xE0A1 + 256 * x.val → decode w = .instr (.sknp x)) ∧
  (∀ (s : State) (x : Reg) (k : Fin 16), (s.readV x).toNat = k.val →
    (∃ t : State, exec (.skp x) s = .next t ∧
      t.pc = (if s.key k = true then s.pc + 4 else s.pc + 2) ∧ OnlyChanges [.pc] s t) ∧
    (∃ t : State, exec (.sknp x) s = .next t ∧
      t.pc = (if s.key k = false then s.pc + 4 else s.pc + 2) ∧ OnlyChanges [.pc] s t)) ∧
  (∀ (s : State) (x : Reg), (s.readV x).toNat > 15 →
    exec (.skp x) s = .next { s with faulted := some (.keyIndexOutOfRange (s.readV x)) } ∧
    exec (.sknp x) s = .next { s with faulted := some (.keyIndexOutOfRange (s.readV x)) })

/-- 46_keypad.md R113: `LD Vx, K`. With no key pressed nothing changes; else the lowest pressed key is stored. -/
def Obligations.KeyWaitStoresTheLowestKey : Prop :=
  (∀ (w : Word) (x : Reg), w.toNat = 0xF00A + 256 * x.val → decode w = .instr (.ldVxK x)) ∧
  (∀ (s : State) (x : Reg), (∀ k : Fin 16, s.key k = false) → exec (.ldVxK x) s = .next s) ∧
  (∀ (s : State) (x : Reg) (k : Fin 16), s.key k = true → (∀ j : Fin 16, j < k → s.key j = false) →
    ∃ t : State, exec (.ldVxK x) s = .next t ∧ (t.readV x).toNat = k.val ∧ t.pc = s.pc + 2 ∧
      RegsUnchangedBut [x] s t ∧ OnlyChanges [.v, .pc] s t)

/-- 40_cycle.md R76: a step that waits changes nothing and is no fault, and the driver is told so. 60_exceptions.md
R136: after any press, the next step completes the instruction. -/
def Obligations.AKeyPressEndsTheWait : Prop :=
  ∀ s : State, s.faulted = none → s.pc.toNat + 1 < 4096 → (∀ k : Fin 16, s.key k = false) →
    ∀ x : Reg, decode s.wordAtPc = .instr (.ldVxK x) →
      step s = .next s ∧ hostStep s = .next (s, .waiting) ∧
      ∀ (font : Config.Font) (k : Fin 16), ∃ t u : State,
        hostOp font (.pressKey k.val) s = .next (t, .nothing) ∧ hostOp font .step t = .next (u, .advanced) ∧
        (u.readV x).toNat = k.val ∧ u.pc = s.pc + 2

/-! ### Memory -/

/-- 20_memory.md R37, R38: `MemRead` and `MemWrite`. Addresses are exact naturals; an access is legal when every
byte lies below 4096; it then reads, or writes, exactly the bytes at `a, a+1, ...`; and else it answers
`MemoryOutOfRange(max(a, 4096))` with no byte read or written. An access of 0 bytes never faults. -/
def Obligations.MemoryAccessesAreChecked : Prop :=
  (∀ (m : Memory) (a n : Nat), n = 0 ∨ a + n ≤ 4096 →
    ∃ bs : List Byte, memRead m a n = .ok bs ∧ bs.length = n ∧ ∀ k : Nat, k < n → bs[k]? = some (m.read (a + k))) ∧
  (∀ (m : Memory) (a n : Nat), 0 < n → 4096 < a + n → memRead m a n = .error (.memoryOutOfRange (max a 4096))) ∧
  (∀ (m : Memory) (a : Nat) (bs : List Byte), bs = [] ∨ a + bs.length ≤ 4096 →
    ∃ m' : Memory, memWrite m a bs = .ok m' ∧ (∀ k : Nat, k < bs.length → bs[k]? = some (m'.read (a + k))) ∧
      ∀ a' : Nat, a' < a ∨ a + bs.length ≤ a' → m'.read a' = m.read a') ∧
  (∀ (m : Memory) (a : Nat) (bs : List Byte), 0 < bs.length → 4096 < a + bs.length →
    memWrite m a bs = .error (.memoryOutOfRange (max a 4096)))

/-- 47_memory_transfer.md R114: `LD B, Vx`. Every byte outside `I .. I + 2` reads as before. -/
def Obligations.LdBStoresTheDecimalDigits : Prop :=
  (∀ (w : Word) (x : Reg), w.toNat = 0xF033 + 256 * x.val → decode w = .instr (.ldB x)) ∧
  (∀ (s : State) (x : Reg), s.i.toNat + 2 < 4096 → ∃ t : State, exec (.ldB x) s = .next t ∧
    (t.mem.read s.i.toNat).toNat = (s.readV x).toNat / 100 ∧
    (t.mem.read (s.i.toNat + 1)).toNat = (s.readV x).toNat / 10 % 10 ∧
    (t.mem.read (s.i.toNat + 2)).toNat = (s.readV x).toNat % 10 ∧
    (∀ a : Nat, a < s.i.toNat ∨ s.i.toNat + 2 < a → t.mem.read a = s.mem.read a) ∧
    t.pc = s.pc + 2 ∧ OnlyChanges [.mem, .pc] s t) ∧
  (∀ (s : State) (x : Reg), 4096 ≤ s.i.toNat + 2 →
    exec (.ldB x) s = .next { s with faulted := some (.memoryOutOfRange (max s.i.toNat 4096)) })

/-- 47_memory_transfer.md R115: `LD [I], Vx`. Every byte outside `I .. I + x` reads as before. -/
def Obligations.LdMemStoresTheRegisters : Prop :=
  (∀ (w : Word) (x : Reg), w.toNat = 0xF055 + 256 * x.val → decode w = .instr (.ldMemVx x)) ∧
  (∀ (s : State) (x : Reg), s.i.toNat + x.val < 4096 → ∃ t : State, exec (.ldMemVx x) s = .next t ∧
    (∀ j : Reg, j ≤ x → t.mem.read (s.i.toNat + j.val) = s.readV j) ∧
    (∀ a : Nat, a < s.i.toNat ∨ s.i.toNat + x.val < a → t.mem.read a = s.mem.read a) ∧
    t.pc = s.pc + 2 ∧ OnlyChanges [.mem, .pc] s t) ∧
  (∀ (s : State) (x : Reg), 4096 ≤ s.i.toNat + x.val →
    exec (.ldMemVx x) s = .next { s with faulted := some (.memoryOutOfRange (max s.i.toNat 4096)) })

/-- 47_memory_transfer.md R116: `LD Vx, [I]`. The registers above `x` keep their values. -/
def Obligations.LdVxMemLoadsTheRegisters : Prop :=
  (∀ (w : Word) (x : Reg), w.toNat = 0xF065 + 256 * x.val → decode w = .instr (.ldVxMem x)) ∧
  (∀ (s : State) (x : Reg), s.i.toNat + x.val < 4096 → ∃ t : State, exec (.ldVxMem x) s = .next t ∧
    (∀ j : Reg, t.readV j = if j ≤ x then s.mem.read (s.i.toNat + j.val) else s.readV j) ∧
    t.pc = s.pc + 2 ∧ OnlyChanges [.v, .pc] s t) ∧
  (∀ (s : State) (x : Reg), 4096 ≤ s.i.toNat + x.val →
    exec (.ldVxMem x) s = .next { s with faulted := some (.memoryOutOfRange (max s.i.toNat 4096)) })

/-- 20_memory.md R54 (derived there), 70_reset_and_hazards.md R144: a stored word is what the next fetch reads. When
`LD [I], Vx` stores over the two bytes after itself, the next fetch assembles the two stored registers, big-endian. -/
def Obligations.NextFetchSeesTheStore : Prop :=
  ∀ (s : State) (x j k : Reg), s.i.toNat + x.val < 4096 → k ≤ x → k.val = j.val + 1 → s.pc.toNat + 2 < 65536 →
    s.pc.toNat + 2 = s.i.toNat + j.val →
    ∃ t : State, exec (.ldMemVx x) s = .next t ∧ fetch t = .ok (s.readV j ++ s.readV k)

/-- The model's canonical form (log entry 5): two memories in that form that read alike are the same data. -/
def Obligations.CanonicalMemoriesThatReadAlikeAreEqual : Prop :=
  ∀ m m' : Memory, m.wf = true → m'.wf = true → (∀ a : Nat, m.read a = m'.read a) → m = m'

/-! ### Faults -/

/-- 60_exceptions.md R121: a fault discards every effect of the step, sets the faulted status, and is what the driver
is told, by the code and the info value of R117's table. -/
def Obligations.FaultsArePrecise : Prop :=
  ∀ (s t : State) (f : Fault), step s = .next t → t.faulted = some f →
    t = { s with faulted := some f } ∧
    hostStep s = .next (t,
      match f with
      | .stackOverflow pc => .fault 1 pc.toNat
      | .stackUnderflow pc => .fault 2 pc.toNat
      | .memoryOutOfRange a => .fault 3 a
      | .unknownOpcode w => .fault 4 w.toNat
      | .loadTooLarge len => .fault 5 len
      | .keyIndexOutOfRange v => .fault 6 v.toNat)

/-- 60_exceptions.md R117, R120: what each fault a step raises says of the state before it. `LoadTooLarge` is raised by
no step. -/
def Obligations.StepFaultsHaveTheListedCauses : Prop :=
  ∀ (s t : State) (f : Fault), step s = .next t → t.faulted = some f →
    match f with
    | .stackOverflow p => p = s.pc ∧ s.sp.val = 16 ∧ ∃ nnn, decode s.wordAtPc = .instr (.call nnn)
    | .stackUnderflow p => p = s.pc ∧ s.sp.val = 0 ∧ decode s.wordAtPc = .instr .ret
    | .memoryOutOfRange a =>
      (0xFFF ≤ s.pc.toNat ∧ a = max s.pc.toNat 4096) ∨
      (s.pc.toNat < 0xFFF ∧ a = max s.i.toNat 4096 ∧
        ((∃ (x y : Reg) (n : Fin 16), decode s.wordAtPc = .instr (.drw x y n) ∧ 0 < n.val ∧
            4096 < s.i.toNat + n.val) ∨
          (∃ x : Reg, decode s.wordAtPc = .instr (.ldB x) ∧ 4096 ≤ s.i.toNat + 2) ∨
          (∃ x : Reg, (decode s.wordAtPc = .instr (.ldMemVx x) ∨ decode s.wordAtPc = .instr (.ldVxMem x)) ∧
            4096 ≤ s.i.toNat + x.val)))
    | .unknownOpcode w => s.pc.toNat < 0xFFF ∧ w = s.wordAtPc ∧ decode w = .unknown
    | .loadTooLarge _ => False
    | .keyIndexOutOfRange v =>
      ∃ x : Reg, (decode s.wordAtPc = .instr (.skp x) ∨ decode s.wordAtPc = .instr (.sknp x)) ∧
        v = s.readV x ∧ 15 < v.toNat

/-- 10_state.md R35, 60_exceptions.md R122, R131: in the faulted state `step` and `load` are refused, the other
operations act, and no operation but `construct` clears or changes the recorded fault. -/
def Obligations.AFaultIsSticky : Prop :=
  (∀ (font : Config.Font) (s : State) (f : Fault), s.faulted = some f →
    hostOp font .step s = .refused (.faultedStatus f) ∧
    (∀ bytes : List Byte, hostOp font (.load bytes) s = .refused (.faultedStatus f)) ∧
    (∃ t : State, hostOp font .tickTimers s = .next (t, .nothing)) ∧
    (∀ k : Fin 16, (∃ t : State, hostOp font (.pressKey k.val) s = .next (t, .nothing)) ∧
      ∃ t : State, hostOp font (.releaseKey k.val) s = .next (t, .nothing)) ∧
    hostOp font .readDisplay s = .next (s, .snapshot s.display.snapshot) ∧
    ∃ t : State, hostOp font .construct s = .next (t, .nothing) ∧ t.faulted = none) ∧
  (∀ (font : Config.Font) (o : HostOp) (s t : State) (r : Reply) (f : Fault), s.faulted = some f → o ≠ .construct →
    hostOp font o s = .next (t, r) → t.faulted = some f)

/-! ### Whole-machine rules -/

/-- The model's choice of log entry 1 (DEDUCED and DESIGN CHOICE), by which a fatal condition and a wait are next states
too: `exec` answers a next state at every state, and `step` does exactly when no fault is recorded, so the model
stops for nothing else. It does not say that every instruction has its effect: one that raises has none (60_exceptions.md
R121), and R123 speaks of states that are not faulted. -/
def Obligations.EveryInstructionRuns : Prop :=
  (∀ (i : Instr) (s : State), ∃ t : State, exec i s = .next t) ∧
  (∀ s : State, (∃ t : State, step s = .next t) ↔ s.faulted = none)

/-- 40_cycle.md R77, with the state tables of 10_state.md R17, R18, R22, R26 to R28: a step changes only the state its
instruction's rule names, plus `pc` and the faulted status; it writes only the registers of R17's table; and it never
changes a key. Within a piece that an instruction names: the two stores change no byte of memory outside the ones
they store, from `I` up (R47 of 20_memory.md), `CALL` changes no stack slot but `S[SP]` (R24), and `DRW` changes no
pixel its sprite does not cover (R79). -/
def Obligations.StepChangesOnlyWhatItsInstructionNames : Prop :=
  (∀ (s t : State) (i : Instr), step s = .next t → s.pc.toNat + 1 < 4096 → decode s.wordAtPc = .instr i →
    OnlyChanges (.pc :: .faulted :: changesOf i) s t ∧
    ∀ r : Reg, writesReg i r = false → t.readV r = s.readV r) ∧
  (∀ s t : State, step s = .next t → t.keys = s.keys) ∧
  (∀ s t : State, step s = .next t → t.dt ≠ s.dt → ∃ x, decode s.wordAtPc = .instr (.ldDtVx x)) ∧
  (∀ s t : State, step s = .next t → t.st ≠ s.st → ∃ x, decode s.wordAtPc = .instr (.ldStVx x)) ∧
  (∀ (s t : State) (x : Reg), step s = .next t → s.pc.toNat + 1 < 4096 → decode s.wordAtPc = .instr (.ldB x) →
    (bcdDigits (s.readV x)).length = 3 ∧
    ∀ a : Nat, a < s.i.toNat ∨ s.i.toNat + (bcdDigits (s.readV x)).length ≤ a → t.mem.read a = s.mem.read a) ∧
  (∀ (s t : State) (x : Reg), step s = .next t → s.pc.toNat + 1 < 4096 → decode s.wordAtPc = .instr (.ldMemVx x) →
    (s.regsUpTo x).length = x.val + 1 ∧
    ∀ a : Nat, a < s.i.toNat ∨ s.i.toNat + (s.regsUpTo x).length ≤ a → t.mem.read a = s.mem.read a) ∧
  (∀ (s t : State) (nnn : Addr12), step s = .next t → s.pc.toNat + 1 < 4096 →
    decode s.wordAtPc = .instr (.call nnn) →
    ∀ j : Fin 16, j.val ≠ s.sp.val → t.stack[j.val] = s.stack[j.val]) ∧
  (∀ (s t : State) (x y : Reg) (n : Fin 16), step s = .next t → s.pc.toNat + 1 < 4096 →
    decode s.wordAtPc = .instr (.drw x y n) →
    ∀ (px : Fin 64) (py : Fin 32), ¬SpriteCovers s x y n.val px py →
      t.display.pixel px py = s.display.pixel px py)

/-- 40_cycle.md R73, R75, R76: an instruction that is no explicit control-flow transfer and raises nothing ends with
`pc + 2`, but for a key wait that waits, which changes nothing. -/
def Obligations.OtherInstructionsAdvanceByTwo : Prop :=
  ∀ (i : Instr) (s t : State), setsPc i = false → s.faulted = none → exec i s = .next t → t.faulted = none →
    t.pc = s.pc + 2 ∨ (t = s ∧ (∃ x, i = .ldVxK x) ∧ ∀ k : Fin 16, s.key k = false)

/-- 10_state.md R34: the stale stack slots `S[SP..15]` are never observed. From two states that differ there only,
a step does the same, and the states after it differ there only. The two states have equal counters `draws`, so that
for `RND` the two steps agree by the model's choice of log entry 2, not by the spec. -/
def Obligations.StaleStackSlotsAreNeverObserved : Prop :=
  ∀ s t s' : State, SameButStaleSlots s t → step s = .next s' →
    ∃ t' : State, step t = .next t' ∧ SameButStaleSlots s' t'

/-- 10_state.md R29, 60_exceptions.md R130: only `RND` reaches the random source. Every other instruction does the
same whatever the source's state, and leaves it as it is. The counter `draws` stands for that state by the model's
choice (log entry 2). -/
def Obligations.OnlyRndReachesTheRandomSource : Prop :=
  ∀ (i : Instr) (s t : State) (d : Nat), (∀ x kk, i ≠ .rnd x kk) → exec i s = .next t →
    exec i { s with draws := d } = .next { t with draws := d }

/-- 70_reset_and_hazards.md R149, 42_control_flow.md R82: where a run has ended, every later step repeats the
self-jump and changes nothing. -/
def Obligations.TheEndOfARunStays : Prop :=
  ∀ s : State, s.ended → step s = .next s

/-! ### Invariants -/

/-- The memory keeps its canonical form (log entry 5). -/
def Obligations.StepKeepsMemoryCanonical : Prop :=
  ∀ s t : State, MemoryCanonical s → step s = .next t → MemoryCanonical t

/-- 10_state.md R20 (derived there): `pc` never exceeds 0x10FE, and return addresses are addresses of fetched
instructions. -/
def Obligations.StepKeepsPcBounded : Prop :=
  ∀ s t : State, PcBounded s → step s = .next t → PcBounded t

/-- A fresh machine meets both invariants, whatever the `FONT`: canonical memory, which is the model's own form (log
entry 5, DESIGN CHOICE), and the bounded `pc` of 10_state.md R20. -/
def Obligations.FreshMachinesMeetTheInvariants : Prop :=
  (MemoryCanonical State.reset ∧ PcBounded State.reset) ∧
  ∀ font : Config.Font, MemoryCanonical (State.construct font) ∧ PcBounded (State.construct font)

/-- Both invariants hold in every state a driver can bring the block to, by any schedule of the seven operations, from
any `FONT` (60_exceptions.md R132, R133). Canonical memory is the model's own form (log entry 5, DESIGN CHOICE). -/
def Obligations.ReachableStatesMeetTheInvariants : Prop :=
  ∀ (font : Config.Font) (s : State), Reachable font s → MemoryCanonical s ∧ PcBounded s

/-! ### The driver's operations -/

/-- 10_state.md R36, 70_reset_and_hazards.md R137: the state after `construct()`, from any state and for any `FONT`.
The random source's state is unspecified, and nothing is said of the model's counter. -/
def Obligations.ConstructGivesTheResetTable : Prop :=
  ∀ (font : Config.Font) (s : State), ∃ t : State, hostOp font .construct s = .next (t, .nothing) ∧
    (∀ r : Reg, t.readV r = 0) ∧ t.i = 0 ∧ t.pc = 0x0200 ∧ t.sp.val = 0 ∧ (∀ j : Fin 16, t.stack[j.val] = 0) ∧
    t.dt = 0 ∧ t.st = 0 ∧ (∀ k : Fin 16, t.key k = false) ∧
    (∀ (x : Fin 64) (y : Fin 32), t.display.pixel x y = false) ∧ t.faulted = none ∧
    t.mem.read 0 = 0xF0 ∧ t.mem.read 1 = 0x90 ∧ t.mem.read 2 = 0x90 ∧ t.mem.read 3 = 0x90 ∧ t.mem.read 4 = 0xF0 ∧
    (∀ (d : Fin 15) (r : Fin 5), t.mem.read (5 * (d.val + 1) + r.val) = font[d.val][r.val]) ∧
    (∀ a : Nat, 80 ≤ a → t.mem.read a = 0)

/-- `State.reset` is a fresh machine with the default `FONT`: glyph 0 is the source's, glyphs 1 to F are the
conventional font, PRESUMED in log entry 3 (20_memory.md R41). -/
def Obligations.ResetHoldsTheDefaultFont : Prop :=
  State.reset = State.construct conventionalFont ∧
  (List.range 80).map (Memory.read State.reset.mem) =
    [0xF0, 0x90, 0x90, 0x90, 0xF0, 0x20, 0x60, 0x20, 0x20, 0x70, 0xF0, 0x10, 0xF0, 0x80, 0xF0, 0xF0, 0x10, 0xF0,
      0x10, 0xF0, 0x90, 0x90, 0xF0, 0x10, 0x10, 0xF0, 0x80, 0xF0, 0x10, 0xF0, 0xF0, 0x80, 0xF0, 0x90, 0xF0, 0xF0,
      0x10, 0x20, 0x40, 0x40] ++
    [0xF0, 0x90, 0xF0, 0x90, 0xF0, 0xF0, 0x90, 0xF0, 0x10, 0xF0, 0xF0, 0x90, 0xF0, 0x90, 0x90, 0xE0, 0x90, 0xE0,
      0x90, 0xE0, 0xF0, 0x80, 0x80, 0x80, 0xF0, 0xE0, 0x90, 0x90, 0x90, 0xE0, 0xF0, 0x80, 0xF0, 0x80, 0xF0, 0xF0,
      0x80, 0xF0, 0x80, 0x80]

/-- 70_reset_and_hazards.md R140, R141: `load(bytes)` copies the image to 0x200 and up and changes nothing else; an
image of more than 3584 bytes raises `LoadTooLarge(len)` with no byte written. -/
def Obligations.LoadCopiesTheImageOrFaults : Prop :=
  (∀ (font : Config.Font) (s : State) (bytes : List Byte), s.faulted = none → wfImage bytes = true →
    ∃ t : State, hostOp font (.load bytes) s = .next (t, .ok) ∧
      (∀ k : Nat, k < bytes.length → bytes[k]? = some (t.mem.read (0x200 + k))) ∧
      (∀ a : Nat, a < 0x200 ∨ 0x200 + bytes.length ≤ a → t.mem.read a = s.mem.read a) ∧
      OnlyChanges [.mem] s t) ∧
  (∀ (font : Config.Font) (s : State) (bytes : List Byte), s.faulted = none → wfImage bytes = false →
    hostOp font (.load bytes) s =
      .next ({ s with faulted := some (.loadTooLarge bytes.length) }, .fault 5 bytes.length)) ∧
  (∀ (font : Config.Font) (s : State) (bytes : List Byte) (f : Fault), s.faulted = some f →
    hostOp font (.load bytes) s = .refused (.faultedStatus f))

/-- 60_exceptions.md R124: `tickTimers()` in any state, the faulted one too. -/
def Obligations.TickTimersCountsDownToZero : Prop :=
  ∀ (font : Config.Font) (s : State), ∃ t : State, hostOp font .tickTimers s = .next (t, .nothing) ∧
    t.dt.toNat = s.dt.toNat - 1 ∧ t.st.toNat = s.st.toNat - 1 ∧ OnlyChanges [.dt, .st] s t

/-- 60_exceptions.md R124, by induction on the ticks: after `n` ticks each timer is down by `n`, or at 0. -/
def Obligations.TicksAddUp : Prop :=
  ∀ (font : Config.Font) (n : Nat) (s : State), ∃ (t : State) (rs : List Reply),
    runHost font (List.replicate n .tickTimers) s = .next (t, rs) ∧
      t.dt.toNat = s.dt.toNat - n ∧ t.st.toNat = s.st.toNat - n ∧ OnlyChanges [.dt, .st] s t

/-- 60_exceptions.md R127, R128: `pressKey(k)` and `releaseKey(k)`, in any state; an identifier outside 0 to 15 is
refused. -/
def Obligations.KeyOperationsSetOneFlag : Prop :=
  (∀ (font : Config.Font) (s : State) (k : Fin 16),
    (∃ t : State, hostOp font (.pressKey k.val) s = .next (t, .nothing) ∧
      (∀ j : Fin 16, t.key j = if j = k then true else s.key j) ∧ OnlyChanges [.keys] s t) ∧
    (∃ t : State, hostOp font (.releaseKey k.val) s = .next (t, .nothing) ∧
      (∀ j : Fin 16, t.key j = if j = k then false else s.key j) ∧ OnlyChanges [.keys] s t)) ∧
  (∀ (font : Config.Font) (s : State) (k : Nat), wfKeyId k = false →
    hostOp font (.pressKey k) s = .refused (.keyIdOutOfSet k) ∧
    hostOp font (.releaseKey k) s = .refused (.keyIdOutOfSet k))

/-- 60_exceptions.md R129: `readDisplay()` in any state; element `y * 64 + x` is pixel `D[x, y]`. -/
def Obligations.ReadDisplayIsARowMajorSnapshot : Prop :=
  ∀ (font : Config.Font) (s : State), ∃ pixels : Vector Bool 2048,
    hostOp font .readDisplay s = .next (s, .snapshot pixels) ∧
    ∀ (x : Fin 64) (y : Fin 32), pixels[y.val * 64 + x.val]? = some (s.display.pixel x y)

/-- 60_exceptions.md R132: operations take effect in exactly the order the driver issues them. The schedule of no
operation changes nothing; the schedule of one operation is that operation, its reply and its refusal included; and a
schedule in two parts is the first part and then, from the state it leaves, the second, or the stop of the part that
stops. That schedules are data and stop at the first refusal is the model's choice (log entry 8, DESIGN CHOICE), and so
is that no operation answers `Outcome.fault` (log entry 1). -/
def Obligations.SchedulesRunInIssueOrder : Prop :=
  (∀ (font : Config.Font) (s : State), runHost font [] s = .next (s, [])) ∧
  (∀ (font : Config.Font) (o : HostOp) (s : State),
    (∀ (t : State) (r : Reply), hostOp font o s = .next (t, r) → runHost font [o] s = .next (t, [r])) ∧
    (∀ q : Refusal, hostOp font o s = .refused q → runHost font [o] s = .refused q) ∧
    ∀ f : Fault, hostOp font o s ≠ .fault f) ∧
  ∀ (font : Config.Font) (os ps : List HostOp) (s : State),
    (∀ (t u : State) (rs qs : List Reply), runHost font os s = .next (t, rs) → runHost font ps t = .next (u, qs) →
      runHost font (os ++ ps) s = .next (u, rs ++ qs)) ∧
    (∀ q : Refusal, runHost font os s = .refused q → runHost font (os ++ ps) s = .refused q) ∧
    (∀ (t : State) (rs : List Reply) (q : Refusal), runHost font os s = .next (t, rs) →
      runHost font ps t = .refused q → runHost font (os ++ ps) s = .refused q)

/-- Each of the seven operations keeps both invariants, from every state that meets them, reached or not
(60_exceptions.md R131; 10_state.md R20). Canonical memory is the model's own form (log entry 5, DESIGN CHOICE). -/
def Obligations.EveryHostOperationKeepsTheInvariants : Prop :=
  ∀ (font : Config.Font) (o : HostOp) (s t : State) (r : Reply), MemoryCanonical s → PcBounded s →
    hostOp font o s = .next (t, r) → MemoryCanonical t ∧ PcBounded t
end

