-- ==== Sys2Proof/Laws/Decode.lean ====
section
/-! SUPPORT. The fields of a word are its 4-bit digits as numbers; a word built by the encoder has the fields it
was built from. -/

namespace Sys2Proof

theorem fieldOp_toNat (w : Word) : (fieldOp w).toNat = w.toNat / 4096 := by
  have h := w.isLt
  simp only [fieldOp, BitVec.extractLsb'_toNat, Nat.shiftRight_eq_div_pow]
  omega

theorem fieldX_toNat (w : Word) : (fieldX w).toNat = w.toNat / 256 % 16 := by
  simp only [fieldX, BitVec.extractLsb'_toNat, Nat.shiftRight_eq_div_pow]

theorem fieldY_toNat (w : Word) : (fieldY w).toNat = w.toNat / 16 % 16 := by
  simp only [fieldY, BitVec.extractLsb'_toNat, Nat.shiftRight_eq_div_pow]

theorem fieldN_toNat (w : Word) : (fieldN w).toNat = w.toNat % 16 := by
  simp [fieldN, BitVec.extractLsb'_toNat]

theorem fieldKK_toNat (w : Word) : (fieldKK w).toNat = w.toNat % 256 := by
  simp [fieldKK, BitVec.extractLsb'_toNat]

theorem fieldNNN_toNat (w : Word) : (fieldNNN w).toNat = w.toNat % 4096 := by
  simp [fieldNNN, BitVec.extractLsb'_toNat]

theorem wordOfBytes_toNat (hi lo : Byte) : (wordOfBytes hi lo).toNat = 256 * hi.toNat + lo.toNat := by
  have := lo.isLt
  simp only [wordOfBytes, BitVec.toNat_append]
  rw [← Nat.shiftLeft_add_eq_or_of_lt (by simpa using lo.isLt), Nat.shiftLeft_eq]
  omega

/-- The two bytes of a word give the word back (20_memory.md R44). -/
@[simp] theorem wordOfBytes_hiByte_loByte (w : Word) : wordOfBytes (hiByte w) (loByte w) = w := by
  apply BitVec.eq_of_toNat_eq
  rw [wordOfBytes_toNat]
  simp only [hiByte, loByte, BitVec.extractLsb'_toNat, Nat.shiftRight_eq_div_pow]
  have := w.isLt
  omega

theorem wordA_toNat (op : Nibble) (nnn : Addr12) : (wordA op nnn).toNat = 4096 * op.toNat + nnn.toNat := by
  simp only [wordA, BitVec.toNat_append]
  rw [← Nat.shiftLeft_add_eq_or_of_lt (by simpa using nnn.isLt), Nat.shiftLeft_eq]
  omega

theorem wordXK_toNat (op : Nibble) (x : Reg) (kk : Byte) :
    (wordXK op x kk).toNat = 4096 * op.toNat + 256 * x.val + kk.toNat := by
  have h := kk.isLt
  have hx := x.isLt
  have e : (BitVec.ofFin (w := 4) x ++ kk : Addr12).toNat = 256 * x.val + kk.toNat := by
    rw [BitVec.toNat_append, ← Nat.shiftLeft_add_eq_or_of_lt (by simpa using h), Nat.shiftLeft_eq]
    show x.val * 2 ^ 8 + kk.toNat = _
    omega
  have : (wordXK op x kk).toNat = (wordA op (BitVec.ofFin (w := 4) x ++ kk : Addr12)).toNat := rfl
  rw [this, wordA_toNat, e]
  omega

theorem wordXYN_toNat (op : Nibble) (x y : Reg) (n : Nibble) :
    (wordXYN op x y n).toNat = 4096 * op.toNat + 256 * x.val + 16 * y.val + n.toNat := by
  have h := n.isLt
  have e : (BitVec.ofFin (w := 4) y ++ n : Byte).toNat = 16 * y.val + n.toNat := by
    rw [BitVec.toNat_append, ← Nat.shiftLeft_add_eq_or_of_lt (by simpa using h), Nat.shiftLeft_eq]
    show y.val * 2 ^ 4 + n.toNat = _
    omega
  have : (wordXYN op x y n).toNat = (wordXK op x (BitVec.ofFin (w := 4) y ++ n : Byte)).toNat := rfl
  rw [this, wordXK_toNat, e]
  omega

/-! ### The fields of a built word -/

@[simp] theorem fieldOp_wordA (op : Nibble) (nnn : Addr12) : fieldOp (wordA op nnn) = op := by
  apply BitVec.eq_of_toNat_eq
  rw [fieldOp_toNat, wordA_toNat]
  have := nnn.isLt
  omega

@[simp] theorem fieldNNN_wordA (op : Nibble) (nnn : Addr12) : fieldNNN (wordA op nnn) = nnn := by
  apply BitVec.eq_of_toNat_eq
  rw [fieldNNN_toNat, wordA_toNat]
  have := nnn.isLt
  omega

@[simp] theorem fieldOp_wordXK (op : Nibble) (x : Reg) (kk : Byte) : fieldOp (wordXK op x kk) = op := by
  apply BitVec.eq_of_toNat_eq
  rw [fieldOp_toNat, wordXK_toNat]
  have := kk.isLt
  have := x.isLt
  omega

@[simp] theorem fieldX_wordXK (op : Nibble) (x : Reg) (kk : Byte) : fieldX (wordXK op x kk) = BitVec.ofFin x := by
  apply BitVec.eq_of_toNat_eq
  rw [fieldX_toNat, wordXK_toNat]
  have := kk.isLt
  have := x.isLt
  show _ = x.val
  omega

@[simp] theorem fieldKK_wordXK (op : Nibble) (x : Reg) (kk : Byte) : fieldKK (wordXK op x kk) = kk := by
  apply BitVec.eq_of_toNat_eq
  rw [fieldKK_toNat, wordXK_toNat]
  have := kk.isLt
  omega

@[simp] theorem fieldOp_wordXYN (op : Nibble) (x y : Reg) (n : Nibble) : fieldOp (wordXYN op x y n) = op := by
  apply BitVec.eq_of_toNat_eq
  rw [fieldOp_toNat, wordXYN_toNat]
  have := n.isLt
  have := x.isLt
  have := y.isLt
  omega

@[simp] theorem fieldX_wordXYN (op : Nibble) (x y : Reg) (n : Nibble) :
    fieldX (wordXYN op x y n) = BitVec.ofFin x := by
  apply BitVec.eq_of_toNat_eq
  rw [fieldX_toNat, wordXYN_toNat]
  have := n.isLt
  have := x.isLt
  have := y.isLt
  show _ = x.val
  omega

@[simp] theorem fieldY_wordXYN (op : Nibble) (x y : Reg) (n : Nibble) :
    fieldY (wordXYN op x y n) = BitVec.ofFin y := by
  apply BitVec.eq_of_toNat_eq
  rw [fieldY_toNat, wordXYN_toNat]
  have := n.isLt
  have := x.isLt
  have := y.isLt
  show _ = y.val
  omega

@[simp] theorem fieldN_wordXYN (op : Nibble) (x y : Reg) (n : Nibble) : fieldN (wordXYN op x y n) = n := by
  apply BitVec.eq_of_toNat_eq
  rw [fieldN_toNat, wordXYN_toNat]
  have := n.isLt
  omega

/-! ### A word is built from its fields -/

theorem wordA_fields (w : Word) : wordA (fieldOp w) (fieldNNN w) = w := by
  apply BitVec.eq_of_toNat_eq
  rw [wordA_toNat, fieldOp_toNat, fieldNNN_toNat]
  omega

theorem wordXK_fields (w : Word) : wordXK (fieldOp w) (fieldX w).toFin (fieldKK w) = w := by
  apply BitVec.eq_of_toNat_eq
  have h : (fieldX w).toFin.val = w.toNat / 256 % 16 := fieldX_toNat w
  rw [wordXK_toNat, fieldOp_toNat, fieldKK_toNat, h]
  omega

theorem wordXYN_fields (w : Word) : wordXYN (fieldOp w) (fieldX w).toFin (fieldY w).toFin (fieldN w) = w := by
  apply BitVec.eq_of_toNat_eq
  have hx : (fieldX w).toFin.val = w.toNat / 256 % 16 := fieldX_toNat w
  have hy : (fieldY w).toFin.val = w.toNat / 16 % 16 := fieldY_toNat w
  rw [wordXYN_toNat, fieldOp_toNat, fieldN_toNat, hx, hy]
  omega

/-! ### The dispatch on the first field, one lemma for each of its values -/

/-- The first field has one of sixteen values. -/
theorem fieldOp_cases (w : Word) :
    fieldOp w = 0x0#4 ∨ fieldOp w = 0x1#4 ∨ fieldOp w = 0x2#4 ∨ fieldOp w = 0x3#4 ∨ fieldOp w = 0x4#4 ∨
    fieldOp w = 0x5#4 ∨ fieldOp w = 0x6#4 ∨ fieldOp w = 0x7#4 ∨ fieldOp w = 0x8#4 ∨ fieldOp w = 0x9#4 ∨
    fieldOp w = 0xA#4 ∨ fieldOp w = 0xB#4 ∨ fieldOp w = 0xC#4 ∨ fieldOp w = 0xD#4 ∨ fieldOp w = 0xE#4 ∨
    fieldOp w = 0xF#4 := by
  generalize fieldOp w = v
  revert v
  decide

theorem decode_of_op0 {w : Word} (h : fieldOp w = 0x0#4) :
    decode w = decodeGroup0 w := by
  simp only [decode, h]
  rfl

theorem decode_of_op1 {w : Word} (h : fieldOp w = 0x1#4) :
    decode w = .instr (.jp (fieldNNN w)) := by
  simp only [decode, h]
  rfl

theorem decode_of_op2 {w : Word} (h : fieldOp w = 0x2#4) :
    decode w = .instr (.call (fieldNNN w)) := by
  simp only [decode, h]
  rfl

theorem decode_of_op3 {w : Word} (h : fieldOp w = 0x3#4) :
    decode w = .instr (.seImm (fieldX w).toFin (fieldKK w)) := by
  simp only [decode, h]
  rfl

theorem decode_of_op4 {w : Word} (h : fieldOp w = 0x4#4) :
    decode w = .instr (.sneImm (fieldX w).toFin (fieldKK w)) := by
  simp only [decode, h]
  rfl

theorem decode_of_op5 {w : Word} (h : fieldOp w = 0x5#4) :
    decode w = if fieldN w = 0#4 then .instr (.seReg (fieldX w).toFin (fieldY w).toFin) else .unknown := by
  simp only [decode, h]
  rfl

theorem decode_of_op6 {w : Word} (h : fieldOp w = 0x6#4) :
    decode w = .instr (.ldImm (fieldX w).toFin (fieldKK w)) := by
  simp only [decode, h]
  rfl

theorem decode_of_op7 {w : Word} (h : fieldOp w = 0x7#4) :
    decode w = .instr (.addImm (fieldX w).toFin (fieldKK w)) := by
  simp only [decode, h]
  rfl

theorem decode_of_op8 {w : Word} (h : fieldOp w = 0x8#4) :
    decode w = decodeGroup8 (fieldX w).toFin (fieldY w).toFin (fieldN w) := by
  simp only [decode, h]
  rfl

theorem decode_of_op9 {w : Word} (h : fieldOp w = 0x9#4) :
    decode w = if fieldN w = 0#4 then .instr (.sneReg (fieldX w).toFin (fieldY w).toFin) else .unknown := by
  simp only [decode, h]
  rfl

theorem decode_of_opA {w : Word} (h : fieldOp w = 0xA#4) :
    decode w = .instr (.ldI (fieldNNN w)) := by
  simp only [decode, h]
  rfl

theorem decode_of_opB {w : Word} (h : fieldOp w = 0xB#4) :
    decode w = .instr (.jpV0 (fieldNNN w)) := by
  simp only [decode, h]
  rfl

theorem decode_of_opC {w : Word} (h : fieldOp w = 0xC#4) :
    decode w = .instr (.rnd (fieldX w).toFin (fieldKK w)) := by
  simp only [decode, h]
  rfl

theorem decode_of_opD {w : Word} (h : fieldOp w = 0xD#4) :
    decode w = .instr (.drw (fieldX w).toFin (fieldY w).toFin (fieldN w).toFin) := by
  simp only [decode, h]
  rfl

theorem decode_of_opE {w : Word} (h : fieldOp w = 0xE#4) :
    decode w = decodeGroupE (fieldX w).toFin (fieldKK w) := by
  simp only [decode, h]
  rfl

theorem decode_of_opF {w : Word} (h : fieldOp w = 0xF#4) :
    decode w = decodeGroupF (fieldX w).toFin (fieldKK w) := by
  simp only [decode, h]
  rfl

end Sys2Proof
end

