-- ==== Sys2Proof/Laws/Display.lean ====
section
/-! SUPPORT. Reading the display after a drawing: each pixel is toggled as often as a set sprite bit maps to
it, and the collision bit is set when a toggle met a lit pixel. -/

namespace Sys2Proof.Machine

open Sys2Proof

theorem Display.pixel_setPixel (d : Display) (x x' : Fin 64) (y y' : Fin 32) (b : Bool) :
    (d.setPixel x y b).pixel x' y' = if x' = x ∧ y' = y then b else d.pixel x' y' := by
  simp only [Display.pixel, Display.setPixel, Vector.getElem_set, Fin.ext_iff]
  by_cases hy : y.val = y'.val
  · have : y = y' := Fin.ext hy
    subst this
    by_cases hx : x.val = x'.val
    · simp [hx]
    · simp [hx, Ne.symm hx]
  · simp [hy, Ne.symm hy]

@[simp] theorem Display.pixel_cleared (x : Fin 64) (y : Fin 32) : Display.cleared.pixel x y = false := by
  simp [Display.cleared, Display.pixel]

/-- Two displays with the same pixels are equal. -/
theorem Display.ext_pixel {d e : Display} (h : ∀ x y, d.pixel x y = e.pixel x y) : d = e := by
  apply Vector.ext
  intro y hy
  apply Vector.ext
  intro x hx
  exact h ⟨x, hx⟩ ⟨y, hy⟩

/-! ### Drawings as sets of toggled pixels -/

/-- From `d` to `e`, exactly the pixels of `A` were toggled, and the collision bit tells whether one of them was
lit in `d`. -/
def Toggles (A : Fin 64 → Fin 32 → Prop) (d e : Drawing) : Prop :=
  (∀ x y, (A x y → e.1.pixel x y = !d.1.pixel x y) ∧ (¬A x y → e.1.pixel x y = d.1.pixel x y)) ∧
    (e.2 = true ↔ d.2 = true ∨ ∃ x y, A x y ∧ d.1.pixel x y = true)

theorem Toggles.congr {A B : Fin 64 → Fin 32 → Prop} {d e : Drawing} (h : Toggles A d e)
    (hAB : ∀ x y, A x y ↔ B x y) : Toggles B d e := by
  have : A = B := by
    funext x y
    exact propext (hAB x y)
  exact this ▸ h

theorem Toggles.none (d : Drawing) : Toggles (fun _ _ => False) d d := by
  simp [Toggles]

theorem Toggles.togglePixel (d : Drawing) (x : Fin 64) (y : Fin 32) :
    Toggles (fun x' y' => x' = x ∧ y' = y) d (togglePixel d x y) := by
  refine ⟨fun x' y' => ⟨?_, ?_⟩, ?_⟩
  · rintro ⟨rfl, rfl⟩
    simp [Machine.togglePixel, Display.pixel_setPixel]
  · intro h
    simp [Machine.togglePixel, Display.pixel_setPixel, h]
  · simp [Machine.togglePixel]

/-- Two drawings one after the other, on disjoint sets of pixels. -/
theorem Toggles.trans {A B : Fin 64 → Fin 32 → Prop} {d e f : Drawing} (h1 : Toggles A d e) (h2 : Toggles B e f)
    (hdis : ∀ x y, A x y → ¬B x y) : Toggles (fun x y => A x y ∨ B x y) d f := by
  refine ⟨fun x y => ⟨?_, ?_⟩, ?_⟩
  · rintro (h | h)
    · rw [(h2.1 x y).2 (hdis x y h), (h1.1 x y).1 h]
    · rw [(h2.1 x y).1 h, (h1.1 x y).2 fun h' => hdis x y h' h]
  · intro h
    rw [(h2.1 x y).2 fun h' => h (.inr h'), (h1.1 x y).2 fun h' => h (.inl h')]
  · rw [h2.2, h1.2]
    constructor
    · rintro ((h | ⟨x, y, hA, hl⟩) | ⟨x, y, hB, hl⟩)
      · exact .inl h
      · exact .inr ⟨x, y, .inl hA, hl⟩
      · exact .inr ⟨x, y, .inr hB, by rwa [(h1.1 x y).2 fun h' => hdis x y h' hB] at hl⟩
    · rintro (h | ⟨x, y, hA | hB, hl⟩)
      · exact .inl (.inl h)
      · exact .inl (.inr ⟨x, y, hA, hl⟩)
      · exact .inr ⟨x, y, hB, by rwa [(h1.1 x y).2 fun h' => hdis x y h' hB]⟩

/-- The pixels the set bits of one sprite row map to, from column `col` on, `left` columns. -/
def RowCovers (vx : Nat) (y : Fin 32) (b : Byte) (col left : Nat) (px : Fin 64) (py : Fin 32) : Prop :=
  py = y ∧ ∃ c, col ≤ c ∧ c < col + left ∧ b.getLsbD (7 - c) = true ∧ wrapX (vx + c) = px

theorem drawCols_toggles (vx : Nat) (y : Fin 32) (b : Byte) (left : Nat) (hl : left ≤ 64) (col : Nat) (d : Drawing) :
    Toggles (RowCovers vx y b col left) d (drawCols vx y b col left d) := by
  induction left generalizing col d with
  | zero => exact (Toggles.none d).congr fun x y' => by simp [RowCovers]; intros; omega
  | succ left ih =>
    rw [drawCols]
    by_cases hb : b.getLsbD (7 - col) = true
    · rw [if_pos hb]
      refine ((Toggles.togglePixel d (wrapX (vx + col)) y).trans (ih (by omega) (col + 1) _) ?_).congr ?_
      · rintro x y' ⟨rfl, rfl⟩ ⟨-, c, h1, h2, -, h4⟩
        have : (vx + c) % 64 = (vx + col) % 64 := congrArg Fin.val h4
        omega
      · intro px py
        constructor
        · rintro (⟨rfl, rfl⟩ | ⟨rfl, c, h1, h2, h3, h4⟩)
          · exact ⟨rfl, col, by omega, by omega, hb, rfl⟩
          · exact ⟨rfl, c, by omega, by omega, h3, h4⟩
        · rintro ⟨rfl, c, h1, h2, h3, h4⟩
          by_cases hc : c = col
          · subst hc
            exact .inl ⟨h4.symm, rfl⟩
          · exact .inr ⟨rfl, c, by omega, by omega, h3, h4⟩
    · rw [if_neg hb]
      refine (ih (by omega) (col + 1) d).congr fun px py => ?_
      constructor
      · rintro ⟨rfl, c, h1, h2, h3, h4⟩
        exact ⟨rfl, c, by omega, by omega, h3, h4⟩
      · rintro ⟨rfl, c, h1, h2, h3, h4⟩
        have hc : c ≠ col := by
          rintro rfl
          exact hb h3
        exact ⟨rfl, c, by omega, by omega, h3, h4⟩

/-- The pixels the set bits of the sprite rows `bs` map to, the first being row `row`. -/
def RowsCover (vx vy row : Nat) (bs : List Byte) (px : Fin 64) (py : Fin 32) : Prop :=
  ∃ (k : Nat) (h : k < bs.length), RowCovers vx (wrapY (vy + (row + k))) bs[k] 0 8 px py

/-- A sprite of at most 32 rows toggles no pixel twice: the drawing toggles exactly the covered pixels
(41_display.md R80). -/
theorem drawRows_toggles (vx vy : Nat) (bs : List Byte) (hl : bs.length ≤ 32) (row : Nat) (d : Drawing) :
    Toggles (RowsCover vx vy row bs) d (drawRows vx vy row bs d) := by
  induction bs generalizing row d with
  | nil => exact (Toggles.none d).congr fun x y => by simp [RowsCover]
  | cons b bs ih =>
    simp only [List.length_cons] at hl
    rw [drawRows]
    refine ((drawCols_toggles vx (wrapY (vy + row)) b 8 (by omega) 0 d).trans (ih (by omega) (row + 1) _) ?_).congr ?_
    · rintro x y ⟨rfl, -⟩ ⟨k, hk, e, -⟩
      have : (vy + row) % 32 = (vy + (row + 1 + k)) % 32 := congrArg Fin.val e
      omega
    · intro px py
      constructor
      · rintro (h | ⟨k, hk, h⟩)
        · exact ⟨0, by simp, h⟩
        · refine ⟨k + 1, by simpa using hk, ?_⟩
          have e : row + (k + 1) = row + 1 + k := by omega
          simpa [e] using h
      · rintro ⟨k, hk, h⟩
        cases k with
        | zero => exact .inl h
        | succ k =>
          refine .inr ⟨k, by simpa using hk, ?_⟩
          have e : row + (k + 1) = row + 1 + k := by omega
          simpa [e] using h

end Sys2Proof.Machine
end

