-- ==== Sys2Proof/Laws/Memory.lean ====
section
/-! SUPPORT. The laws of memory: a read after a write, the frame of a write, the range check of an access, and
that every memory operation keeps the canonical form. -/

namespace Sys2Proof.Machine

open Sys2Proof

/-! ### One byte -/

/-- A list with no entry at `a` reads there as a fresh machine. -/
theorem Memory.read_filter_self (m : Memory) (a : Nat) :
    Memory.read (m.filter (fun c => c.1 ≠ a)) a = Memory.initial a := by
  induction m with
  | nil => rfl
  | cons c m ih =>
    by_cases h : c.1 = a
    · simpa [List.filter_cons, h] using ih
    · simpa [List.filter_cons, h, Memory.read] using ih

theorem Memory.read_filter_ne (m : Memory) {a a' : Nat} (h : a' ≠ a) :
    Memory.read (m.filter (fun c => c.1 ≠ a)) a' = m.read a' := by
  induction m with
  | nil => rfl
  | cons c m ih =>
    obtain ⟨k, b⟩ := c
    by_cases hk : k = a
    · subst hk
      simpa [List.filter_cons, Memory.read, Ne.symm h] using ih
    · simpa [List.filter_cons, Memory.read, hk] using congrArg (fun r => if k = a' then b else r) ih

theorem Memory.read_insert_self (m : Memory) (a : Nat) (b : Byte) : (Memory.insert a b m).read a = b := by
  induction m with
  | nil => simp [Memory.insert, Memory.read]
  | cons c m ih =>
    obtain ⟨k, d⟩ := c
    by_cases h1 : a < k
    · simp [Memory.insert, Memory.read, h1]
    · by_cases h2 : k = a
      · simp [Memory.insert, Memory.read, h2]
      · simpa [Memory.insert, Memory.read, h1, h2] using ih

theorem Memory.read_insert_ne (m : Memory) {a a' : Nat} (b : Byte) (h : a' ≠ a) :
    (Memory.insert a b m).read a' = m.read a' := by
  induction m with
  | nil => simp [Memory.insert, Memory.read, Ne.symm h]
  | cons c m ih =>
    obtain ⟨k, d⟩ := c
    by_cases h1 : a < k
    · simp [Memory.insert, Memory.read, h1, Ne.symm h]
    · by_cases h2 : k = a
      · subst h2
        simp [Memory.insert, Memory.read, Ne.symm h]
      · simpa [Memory.insert, Memory.read, h1, h2] using congrArg (fun r => if k = a' then d else r) ih

/-- Reading a byte returns the last value written to it, and a write changes only its byte (20_memory.md R49). -/
theorem Memory.read_write (m : Memory) (a a' : Nat) (b : Byte) :
    (m.write a b).read a' = if a' = a then b else m.read a' := by
  by_cases h : a' = a
  · subst h
    by_cases hb : b = Memory.initial a'
    · simpa [Memory.write, hb] using Memory.read_filter_self m a'
    · simpa [Memory.write, hb] using Memory.read_insert_self m a' b
  · by_cases hb : b = Memory.initial a
    · simpa [Memory.write, hb, h] using Memory.read_filter_ne m h
    · simpa [Memory.write, hb, h] using Memory.read_insert_ne m b h

/-! ### Several bytes -/

/-- What an address reads as after a write of consecutive bytes. -/
theorem Memory.read_writeBytes (m : Memory) (a a' : Nat) (bs : List Byte) :
    (m.writeBytes a bs).read a' = if a ≤ a' then (bs[a' - a]?).getD (m.read a') else m.read a' := by
  induction bs generalizing m a with
  | nil => simp [Memory.writeBytes]
  | cons b bs ih =>
    rw [Memory.writeBytes, ih, Memory.read_write]
    by_cases h1 : a' = a
    · subst h1
      simp
    · by_cases h2 : a + 1 ≤ a'
      · obtain ⟨k, rfl⟩ := Nat.exists_eq_add_of_le h2
        have e1 : a + 1 + k - (a + 1) = k := by omega
        have e2 : a + 1 + k - a = k + 1 := by omega
        have e3 : a ≤ a + 1 + k := by omega
        simp [e1, e2, e3, h1]
      · have h3 : ¬a ≤ a' := by omega
        simp [h2, h3, h1]

/-- The written bytes read back. -/
theorem Memory.read_writeBytes_inside (m : Memory) (a k : Nat) (bs : List Byte) (h : k < bs.length) :
    (m.writeBytes a bs).read (a + k) = bs[k] := by
  simp [Memory.read_writeBytes, h]

/-- Every address outside the written bytes reads as before. -/
theorem Memory.read_writeBytes_outside (m : Memory) (a a' : Nat) (bs : List Byte)
    (h : a' < a ∨ a + bs.length ≤ a') : (m.writeBytes a bs).read a' = m.read a' := by
  rw [Memory.read_writeBytes]
  split
  · rw [List.getElem?_eq_none (by omega)]
    rfl
  · rfl

@[simp] theorem Memory.length_readBytes (m : Memory) (a n : Nat) : (m.readBytes a n).length = n := by
  induction n generalizing a with
  | zero => rfl
  | succ n ih => simp [Memory.readBytes, ih]

/-- The bytes read are those of consecutive addresses, in ascending order. -/
theorem Memory.getElem_readBytes (m : Memory) (a n k : Nat) (h : k < (m.readBytes a n).length) :
    (m.readBytes a n)[k] = m.read (a + k) := by
  induction n generalizing a k with
  | zero => simp at h
  | succ n ih =>
    cases k with
    | zero => rfl
    | succ k =>
      simp only [Memory.readBytes, List.getElem_cons_succ]
      rw [ih]
      congr 1
      omega

/-! ### The range check -/

/-- The access is legal: no byte of it is at or above 4096 (20_memory.md R37). -/
theorem rangeFault_of_le {a n : Nat} (h : n = 0 ∨ a + n ≤ 4096) : rangeFault a n = none := by
  simp [rangeFault, memSize, h]

/-- The access reaches out of memory, and the info is the lowest address it does so at. -/
theorem rangeFault_of_gt {a n : Nat} (h0 : 0 < n) (h : 4096 < a + n) :
    rangeFault a n = some (.memoryOutOfRange (max a 4096)) := by
  simp [rangeFault, memSize, Nat.not_le.mpr h, Nat.ne_of_gt h0]

theorem rangeFault_eq_none {a n : Nat} : rangeFault a n = none ↔ n = 0 ∨ a + n ≤ 4096 := by
  unfold rangeFault memSize
  split <;> simp_all

theorem memRead_of_le (m : Memory) {a n : Nat} (h : n = 0 ∨ a + n ≤ 4096) :
    memRead m a n = .ok (m.readBytes a n) := by
  simp [memRead, rangeFault_of_le h]

theorem memRead_of_gt (m : Memory) {a n : Nat} (h0 : 0 < n) (h : 4096 < a + n) :
    memRead m a n = .error (.memoryOutOfRange (max a 4096)) := by
  simp [memRead, rangeFault_of_gt h0 h]

theorem memWrite_of_le (m : Memory) {a : Nat} {bs : List Byte} (h : bs = [] ∨ a + bs.length ≤ 4096) :
    memWrite m a bs = .ok (m.writeBytes a bs) := by
  have h' : bs.length = 0 ∨ a + bs.length ≤ 4096 := h.imp (fun e => by simp [e]) id
  simp [memWrite, rangeFault_of_le h']

theorem memWrite_of_gt (m : Memory) {a : Nat} {bs : List Byte} (h0 : 0 < bs.length) (h : 4096 < a + bs.length) :
    memWrite m a bs = .error (.memoryOutOfRange (max a 4096)) := by
  simp [memWrite, rangeFault_of_gt h0 h]

/-- Everything a checked read can do (20_memory.md R37, R38). -/
theorem memRead_cases (m : Memory) (a n : Nat) :
    ((n = 0 ∨ a + n ≤ 4096) ∧ memRead m a n = .ok (m.readBytes a n)) ∨
    (0 < n ∧ 4096 < a + n ∧ memRead m a n = .error (.memoryOutOfRange (max a 4096))) := by
  by_cases h : n = 0 ∨ a + n ≤ 4096
  · exact .inl ⟨h, memRead_of_le m h⟩
  · exact .inr ⟨by omega, by omega, memRead_of_gt m (by omega) (by omega)⟩

/-- Everything a checked write can do (20_memory.md R37, R38). -/
theorem memWrite_answers (m : Memory) (a : Nat) (bs : List Byte) :
    ((bs = [] ∨ a + bs.length ≤ 4096) ∧ memWrite m a bs = .ok (m.writeBytes a bs)) ∨
    (0 < bs.length ∧ 4096 < a + bs.length ∧ memWrite m a bs = .error (.memoryOutOfRange (max a 4096))) := by
  by_cases h : bs = [] ∨ a + bs.length ≤ 4096
  · exact .inl ⟨h, memWrite_of_le m h⟩
  · have h0 : 0 < bs.length := List.length_pos_of_ne_nil fun e => h (.inl e)
    exact .inr ⟨h0, by omega, memWrite_of_gt m h0 (by omega)⟩

/-- What a checked write answers: the bytes written, after a check that passed. -/
theorem memWrite_cases {m m' : Memory} {a : Nat} {bs : List Byte} (h : memWrite m a bs = .ok m') :
    (bs = [] ∨ a + bs.length ≤ 4096) ∧ m' = m.writeBytes a bs := by
  unfold memWrite at h
  split at h
  · cases h
  · rename_i e
    cases h
    exact ⟨(rangeFault_eq_none.mp e).imp List.length_eq_zero_iff.mp id, rfl⟩

/-! ### The canonical form -/

theorem Memory.rising_mono {low low' : Nat} {m : Memory} (h : low' ≤ low) (hm : Memory.rising low m = true) :
    Memory.rising low' m = true := by
  cases m with
  | nil => rfl
  | cons c m =>
    simp only [Memory.rising, Bool.and_eq_true, decide_eq_true_eq] at hm ⊢
    exact ⟨by omega, hm.2⟩

/-- Below the lowest listed address, every byte is as on a fresh machine. -/
theorem Memory.read_below_rising {low a : Nat} {m : Memory} (hm : Memory.rising low m = true) (h : a < low) :
    m.read a = Memory.initial a := by
  induction m generalizing low with
  | nil => rfl
  | cons c m ih =>
    simp only [Memory.rising, Bool.and_eq_true, decide_eq_true_eq] at hm
    rw [Memory.read, if_neg (by omega)]
    exact ih hm.2 (by omega)

theorem Memory.rising_filter (p : Host.Cell → Bool) {low : Nat} {m : Memory} (hm : Memory.rising low m = true) :
    Memory.rising low (m.filter p) = true := by
  induction m generalizing low with
  | nil => rfl
  | cons c m ih =>
    simp only [Memory.rising, Bool.and_eq_true, decide_eq_true_eq] at hm
    rw [List.filter_cons]
    split
    · simp only [Memory.rising, Bool.and_eq_true, decide_eq_true_eq]
      exact ⟨hm.1, ih hm.2⟩
    · exact Memory.rising_mono (by omega) (ih hm.2)

theorem Memory.rising_insert {low a : Nat} (b : Byte) {m : Memory} (ha : low ≤ a)
    (hm : Memory.rising low m = true) : Memory.rising low (Memory.insert a b m) = true := by
  induction m generalizing low with
  | nil => simp [Memory.insert, Memory.rising, ha]
  | cons c m ih =>
    obtain ⟨k, d⟩ := c
    simp only [Memory.rising, Bool.and_eq_true, decide_eq_true_eq] at hm
    by_cases h1 : a < k
    · simp [Memory.insert, Memory.rising, h1, ha, hm.2, Nat.succ_le_of_lt h1]
    · by_cases h2 : k = a
      · subst h2
        simp [Memory.insert, Memory.rising, hm.2, ha]
      · have h3 : k + 1 ≤ a := by omega
        simp [Memory.insert, Memory.rising, h1, h2, hm.1, ih h3 hm.2]

theorem Memory.mem_insert {a : Nat} {b : Byte} {m : Memory} {c : Host.Cell} (h : c ∈ Memory.insert a b m) :
    c = (a, b) ∨ c ∈ m := by
  induction m with
  | nil => simpa [Memory.insert] using h
  | cons d m ih =>
    obtain ⟨k, e⟩ := d
    unfold Memory.insert at h
    split at h
    · simpa using h
    · split at h
      · rcases List.mem_cons.mp h with h | h
        · exact .inl h
        · exact .inr (List.mem_cons_of_mem _ h)
      · rcases List.mem_cons.mp h with h | h
        · exact .inr (by simp [h])
        · exact (ih h).imp id (List.mem_cons_of_mem _)

/-- Writing a byte of the address space keeps the canonical form. -/
theorem Memory.write_wf {m : Memory} {a : Nat} (b : Byte) (ha : a < 4096) (hm : m.wf = true) :
    (m.write a b).wf = true := by
  simp only [Memory.wf, Bool.and_eq_true, List.all_eq_true, decide_eq_true_eq, memSize] at hm ⊢
  obtain ⟨hr, he⟩ := hm
  by_cases hb : b = Memory.initial a
  · simp only [Memory.write, hb, if_true]
    exact ⟨Memory.rising_filter _ hr, fun c hc => he c (List.mem_of_mem_filter hc)⟩
  · simp only [Memory.write, hb, if_false]
    refine ⟨Memory.rising_insert b (Nat.zero_le a) hr, fun c hc => ?_⟩
    rcases Memory.mem_insert hc with rfl | h
    · simp [ha, hb]
    · exact he c h

/-- Writing bytes of the address space keeps the canonical form. -/
theorem Memory.writeBytes_wf {m : Memory} {a : Nat} {bs : List Byte} (h : bs = [] ∨ a + bs.length ≤ 4096)
    (hm : m.wf = true) : (m.writeBytes a bs).wf = true := by
  induction bs generalizing m a with
  | nil => exact hm
  | cons b bs ih =>
    have h' : a + (bs.length + 1) ≤ 4096 := by simpa using h
    exact ih (.inr (by omega)) (Memory.write_wf b (by omega) hm)

/-- A checked write keeps the canonical form. -/
theorem memWrite_wf {m m' : Memory} {a : Nat} {bs : List Byte} (h : memWrite m a bs = .ok m')
    (hm : m.wf = true) : m'.wf = true := by
  obtain ⟨hle, rfl⟩ := memWrite_cases h
  exact Memory.writeBytes_wf hle hm

/-- The memory of a fresh machine has the canonical form, whatever the `FONT`. -/
theorem Memory.ofFont_wf (font : Config.Font) : (Memory.ofFont font).wf = true :=
  Memory.writeBytes_wf (.inr (by simp)) rfl

/-- A fresh machine's memory reads as its `FONT` says below 80 and as zero above (10_state.md R36). -/
theorem Memory.read_ofFont (font : Config.Font) (a : Nat) : (Memory.ofFont font).read a = fontByte font a := by
  rw [Memory.ofFont, Memory.read_writeBytes]
  by_cases h : a < 80
  · simp [h]
  · have h5 : ¬a < 5 := by omega
    simp [h, Memory.read, Memory.initial, fontByte, h5]

/-- Placing an instruction word keeps the canonical form where the two bytes are memory. -/
theorem State.placeWord_wf {s : State} (w : Word) (h : s.pc.toNat + 2 ≤ 4096) (hm : s.mem.wf = true) :
    (s.placeWord w).mem.wf = true :=
  Memory.writeBytes_wf (.inr h) hm

end Sys2Proof.Machine
end

