-- ==== Sys2Proof/Laws/State.lean ====
section
/-! SUPPORT. One lemma per field and update of `State`, each true by rfl, so that no later proof unfolds a record
update; and the lemmas that read a register after a write. -/

namespace Sys2Proof.Machine

open Sys2Proof

/-! ### `State.writeV` -/

@[simp] theorem State.writeV_v (s : State) (x : Reg) (b : Byte) : (s.writeV x b).v = s.v.set x.val b := rfl
@[simp] theorem State.writeV_i (s : State) (x : Reg) (b : Byte) : (s.writeV x b).i = s.i := rfl
@[simp] theorem State.writeV_pc (s : State) (x : Reg) (b : Byte) : (s.writeV x b).pc = s.pc := rfl
@[simp] theorem State.writeV_sp (s : State) (x : Reg) (b : Byte) : (s.writeV x b).sp = s.sp := rfl
@[simp] theorem State.writeV_stack (s : State) (x : Reg) (b : Byte) : (s.writeV x b).stack = s.stack := rfl
@[simp] theorem State.writeV_dt (s : State) (x : Reg) (b : Byte) : (s.writeV x b).dt = s.dt := rfl
@[simp] theorem State.writeV_st (s : State) (x : Reg) (b : Byte) : (s.writeV x b).st = s.st := rfl
@[simp] theorem State.writeV_keys (s : State) (x : Reg) (b : Byte) : (s.writeV x b).keys = s.keys := rfl
@[simp] theorem State.writeV_display (s : State) (x : Reg) (b : Byte) : (s.writeV x b).display = s.display := rfl
@[simp] theorem State.writeV_mem (s : State) (x : Reg) (b : Byte) : (s.writeV x b).mem = s.mem := rfl
@[simp] theorem State.writeV_faulted (s : State) (x : Reg) (b : Byte) : (s.writeV x b).faulted = s.faulted := rfl
@[simp] theorem State.writeV_draws (s : State) (x : Reg) (b : Byte) : (s.writeV x b).draws = s.draws := rfl

/-! ### `State.writeI` -/

@[simp] theorem State.writeI_v (s : State) (w : Word) : (s.writeI w).v = s.v := rfl
@[simp] theorem State.writeI_i (s : State) (w : Word) : (s.writeI w).i = w := rfl
@[simp] theorem State.writeI_pc (s : State) (w : Word) : (s.writeI w).pc = s.pc := rfl
@[simp] theorem State.writeI_sp (s : State) (w : Word) : (s.writeI w).sp = s.sp := rfl
@[simp] theorem State.writeI_stack (s : State) (w : Word) : (s.writeI w).stack = s.stack := rfl
@[simp] theorem State.writeI_dt (s : State) (w : Word) : (s.writeI w).dt = s.dt := rfl
@[simp] theorem State.writeI_st (s : State) (w : Word) : (s.writeI w).st = s.st := rfl
@[simp] theorem State.writeI_keys (s : State) (w : Word) : (s.writeI w).keys = s.keys := rfl
@[simp] theorem State.writeI_display (s : State) (w : Word) : (s.writeI w).display = s.display := rfl
@[simp] theorem State.writeI_mem (s : State) (w : Word) : (s.writeI w).mem = s.mem := rfl
@[simp] theorem State.writeI_faulted (s : State) (w : Word) : (s.writeI w).faulted = s.faulted := rfl
@[simp] theorem State.writeI_draws (s : State) (w : Word) : (s.writeI w).draws = s.draws := rfl

/-! ### `State.writePc` -/

@[simp] theorem State.writePc_v (s : State) (w : Word) : (s.writePc w).v = s.v := rfl
@[simp] theorem State.writePc_i (s : State) (w : Word) : (s.writePc w).i = s.i := rfl
@[simp] theorem State.writePc_pc (s : State) (w : Word) : (s.writePc w).pc = w := rfl
@[simp] theorem State.writePc_sp (s : State) (w : Word) : (s.writePc w).sp = s.sp := rfl
@[simp] theorem State.writePc_stack (s : State) (w : Word) : (s.writePc w).stack = s.stack := rfl
@[simp] theorem State.writePc_dt (s : State) (w : Word) : (s.writePc w).dt = s.dt := rfl
@[simp] theorem State.writePc_st (s : State) (w : Word) : (s.writePc w).st = s.st := rfl
@[simp] theorem State.writePc_keys (s : State) (w : Word) : (s.writePc w).keys = s.keys := rfl
@[simp] theorem State.writePc_display (s : State) (w : Word) : (s.writePc w).display = s.display := rfl
@[simp] theorem State.writePc_mem (s : State) (w : Word) : (s.writePc w).mem = s.mem := rfl
@[simp] theorem State.writePc_faulted (s : State) (w : Word) : (s.writePc w).faulted = s.faulted := rfl
@[simp] theorem State.writePc_draws (s : State) (w : Word) : (s.writePc w).draws = s.draws := rfl

/-! ### `State.advance` -/

@[simp] theorem State.advance_v (s : State) : (s.advance).v = s.v := rfl
@[simp] theorem State.advance_i (s : State) : (s.advance).i = s.i := rfl
@[simp] theorem State.advance_pc (s : State) : (s.advance).pc = s.pc + 2#16 := rfl
@[simp] theorem State.advance_sp (s : State) : (s.advance).sp = s.sp := rfl
@[simp] theorem State.advance_stack (s : State) : (s.advance).stack = s.stack := rfl
@[simp] theorem State.advance_dt (s : State) : (s.advance).dt = s.dt := rfl
@[simp] theorem State.advance_st (s : State) : (s.advance).st = s.st := rfl
@[simp] theorem State.advance_keys (s : State) : (s.advance).keys = s.keys := rfl
@[simp] theorem State.advance_display (s : State) : (s.advance).display = s.display := rfl
@[simp] theorem State.advance_mem (s : State) : (s.advance).mem = s.mem := rfl
@[simp] theorem State.advance_faulted (s : State) : (s.advance).faulted = s.faulted := rfl
@[simp] theorem State.advance_draws (s : State) : (s.advance).draws = s.draws := rfl

/-! ### `State.skipIf` -/

@[simp] theorem State.skipIf_v (s : State) (c : Bool) : (s.skipIf c).v = s.v := rfl
@[simp] theorem State.skipIf_i (s : State) (c : Bool) : (s.skipIf c).i = s.i := rfl
@[simp] theorem State.skipIf_pc (s : State) (c : Bool) : (s.skipIf c).pc = if c then s.pc + 4#16 else s.pc + 2#16 := rfl
@[simp] theorem State.skipIf_sp (s : State) (c : Bool) : (s.skipIf c).sp = s.sp := rfl
@[simp] theorem State.skipIf_stack (s : State) (c : Bool) : (s.skipIf c).stack = s.stack := rfl
@[simp] theorem State.skipIf_dt (s : State) (c : Bool) : (s.skipIf c).dt = s.dt := rfl
@[simp] theorem State.skipIf_st (s : State) (c : Bool) : (s.skipIf c).st = s.st := rfl
@[simp] theorem State.skipIf_keys (s : State) (c : Bool) : (s.skipIf c).keys = s.keys := rfl
@[simp] theorem State.skipIf_display (s : State) (c : Bool) : (s.skipIf c).display = s.display := rfl
@[simp] theorem State.skipIf_mem (s : State) (c : Bool) : (s.skipIf c).mem = s.mem := rfl
@[simp] theorem State.skipIf_faulted (s : State) (c : Bool) : (s.skipIf c).faulted = s.faulted := rfl
@[simp] theorem State.skipIf_draws (s : State) (c : Bool) : (s.skipIf c).draws = s.draws := rfl

/-! ### `State.writeDt` -/

@[simp] theorem State.writeDt_v (s : State) (b : Byte) : (s.writeDt b).v = s.v := rfl
@[simp] theorem State.writeDt_i (s : State) (b : Byte) : (s.writeDt b).i = s.i := rfl
@[simp] theorem State.writeDt_pc (s : State) (b : Byte) : (s.writeDt b).pc = s.pc := rfl
@[simp] theorem State.writeDt_sp (s : State) (b : Byte) : (s.writeDt b).sp = s.sp := rfl
@[simp] theorem State.writeDt_stack (s : State) (b : Byte) : (s.writeDt b).stack = s.stack := rfl
@[simp] theorem State.writeDt_dt (s : State) (b : Byte) : (s.writeDt b).dt = b := rfl
@[simp] theorem State.writeDt_st (s : State) (b : Byte) : (s.writeDt b).st = s.st := rfl
@[simp] theorem State.writeDt_keys (s : State) (b : Byte) : (s.writeDt b).keys = s.keys := rfl
@[simp] theorem State.writeDt_display (s : State) (b : Byte) : (s.writeDt b).display = s.display := rfl
@[simp] theorem State.writeDt_mem (s : State) (b : Byte) : (s.writeDt b).mem = s.mem := rfl
@[simp] theorem State.writeDt_faulted (s : State) (b : Byte) : (s.writeDt b).faulted = s.faulted := rfl
@[simp] theorem State.writeDt_draws (s : State) (b : Byte) : (s.writeDt b).draws = s.draws := rfl

/-! ### `State.writeSt` -/

@[simp] theorem State.writeSt_v (s : State) (b : Byte) : (s.writeSt b).v = s.v := rfl
@[simp] theorem State.writeSt_i (s : State) (b : Byte) : (s.writeSt b).i = s.i := rfl
@[simp] theorem State.writeSt_pc (s : State) (b : Byte) : (s.writeSt b).pc = s.pc := rfl
@[simp] theorem State.writeSt_sp (s : State) (b : Byte) : (s.writeSt b).sp = s.sp := rfl
@[simp] theorem State.writeSt_stack (s : State) (b : Byte) : (s.writeSt b).stack = s.stack := rfl
@[simp] theorem State.writeSt_dt (s : State) (b : Byte) : (s.writeSt b).dt = s.dt := rfl
@[simp] theorem State.writeSt_st (s : State) (b : Byte) : (s.writeSt b).st = b := rfl
@[simp] theorem State.writeSt_keys (s : State) (b : Byte) : (s.writeSt b).keys = s.keys := rfl
@[simp] theorem State.writeSt_display (s : State) (b : Byte) : (s.writeSt b).display = s.display := rfl
@[simp] theorem State.writeSt_mem (s : State) (b : Byte) : (s.writeSt b).mem = s.mem := rfl
@[simp] theorem State.writeSt_faulted (s : State) (b : Byte) : (s.writeSt b).faulted = s.faulted := rfl
@[simp] theorem State.writeSt_draws (s : State) (b : Byte) : (s.writeSt b).draws = s.draws := rfl

/-! ### `State.writeMem` -/

@[simp] theorem State.writeMem_v (s : State) (m : Memory) : (s.writeMem m).v = s.v := rfl
@[simp] theorem State.writeMem_i (s : State) (m : Memory) : (s.writeMem m).i = s.i := rfl
@[simp] theorem State.writeMem_pc (s : State) (m : Memory) : (s.writeMem m).pc = s.pc := rfl
@[simp] theorem State.writeMem_sp (s : State) (m : Memory) : (s.writeMem m).sp = s.sp := rfl
@[simp] theorem State.writeMem_stack (s : State) (m : Memory) : (s.writeMem m).stack = s.stack := rfl
@[simp] theorem State.writeMem_dt (s : State) (m : Memory) : (s.writeMem m).dt = s.dt := rfl
@[simp] theorem State.writeMem_st (s : State) (m : Memory) : (s.writeMem m).st = s.st := rfl
@[simp] theorem State.writeMem_keys (s : State) (m : Memory) : (s.writeMem m).keys = s.keys := rfl
@[simp] theorem State.writeMem_display (s : State) (m : Memory) : (s.writeMem m).display = s.display := rfl
@[simp] theorem State.writeMem_mem (s : State) (m : Memory) : (s.writeMem m).mem = m := rfl
@[simp] theorem State.writeMem_faulted (s : State) (m : Memory) : (s.writeMem m).faulted = s.faulted := rfl
@[simp] theorem State.writeMem_draws (s : State) (m : Memory) : (s.writeMem m).draws = s.draws := rfl

/-! ### `State.writeAllV` -/

@[simp] theorem State.writeAllV_v (s : State) (v : Vector Byte 16) : (s.writeAllV v).v = v := rfl
@[simp] theorem State.writeAllV_i (s : State) (v : Vector Byte 16) : (s.writeAllV v).i = s.i := rfl
@[simp] theorem State.writeAllV_pc (s : State) (v : Vector Byte 16) : (s.writeAllV v).pc = s.pc := rfl
@[simp] theorem State.writeAllV_sp (s : State) (v : Vector Byte 16) : (s.writeAllV v).sp = s.sp := rfl
@[simp] theorem State.writeAllV_stack (s : State) (v : Vector Byte 16) : (s.writeAllV v).stack = s.stack := rfl
@[simp] theorem State.writeAllV_dt (s : State) (v : Vector Byte 16) : (s.writeAllV v).dt = s.dt := rfl
@[simp] theorem State.writeAllV_st (s : State) (v : Vector Byte 16) : (s.writeAllV v).st = s.st := rfl
@[simp] theorem State.writeAllV_keys (s : State) (v : Vector Byte 16) : (s.writeAllV v).keys = s.keys := rfl
@[simp] theorem State.writeAllV_display (s : State) (v : Vector Byte 16) : (s.writeAllV v).display = s.display := rfl
@[simp] theorem State.writeAllV_mem (s : State) (v : Vector Byte 16) : (s.writeAllV v).mem = s.mem := rfl
@[simp] theorem State.writeAllV_faulted (s : State) (v : Vector Byte 16) : (s.writeAllV v).faulted = s.faulted := rfl
@[simp] theorem State.writeAllV_draws (s : State) (v : Vector Byte 16) : (s.writeAllV v).draws = s.draws := rfl

/-! ### `State.writeDisplay` -/

@[simp] theorem State.writeDisplay_v (s : State) (d : Display) : (s.writeDisplay d).v = s.v := rfl
@[simp] theorem State.writeDisplay_i (s : State) (d : Display) : (s.writeDisplay d).i = s.i := rfl
@[simp] theorem State.writeDisplay_pc (s : State) (d : Display) : (s.writeDisplay d).pc = s.pc := rfl
@[simp] theorem State.writeDisplay_sp (s : State) (d : Display) : (s.writeDisplay d).sp = s.sp := rfl
@[simp] theorem State.writeDisplay_stack (s : State) (d : Display) : (s.writeDisplay d).stack = s.stack := rfl
@[simp] theorem State.writeDisplay_dt (s : State) (d : Display) : (s.writeDisplay d).dt = s.dt := rfl
@[simp] theorem State.writeDisplay_st (s : State) (d : Display) : (s.writeDisplay d).st = s.st := rfl
@[simp] theorem State.writeDisplay_keys (s : State) (d : Display) : (s.writeDisplay d).keys = s.keys := rfl
@[simp] theorem State.writeDisplay_display (s : State) (d : Display) : (s.writeDisplay d).display = d := rfl
@[simp] theorem State.writeDisplay_mem (s : State) (d : Display) : (s.writeDisplay d).mem = s.mem := rfl
@[simp] theorem State.writeDisplay_faulted (s : State) (d : Display) : (s.writeDisplay d).faulted = s.faulted := rfl
@[simp] theorem State.writeDisplay_draws (s : State) (d : Display) : (s.writeDisplay d).draws = s.draws := rfl

/-! ### `State.drawTaken` -/

@[simp] theorem State.drawTaken_v (s : State) : (s.drawTaken).v = s.v := rfl
@[simp] theorem State.drawTaken_i (s : State) : (s.drawTaken).i = s.i := rfl
@[simp] theorem State.drawTaken_pc (s : State) : (s.drawTaken).pc = s.pc := rfl
@[simp] theorem State.drawTaken_sp (s : State) : (s.drawTaken).sp = s.sp := rfl
@[simp] theorem State.drawTaken_stack (s : State) : (s.drawTaken).stack = s.stack := rfl
@[simp] theorem State.drawTaken_dt (s : State) : (s.drawTaken).dt = s.dt := rfl
@[simp] theorem State.drawTaken_st (s : State) : (s.drawTaken).st = s.st := rfl
@[simp] theorem State.drawTaken_keys (s : State) : (s.drawTaken).keys = s.keys := rfl
@[simp] theorem State.drawTaken_display (s : State) : (s.drawTaken).display = s.display := rfl
@[simp] theorem State.drawTaken_mem (s : State) : (s.drawTaken).mem = s.mem := rfl
@[simp] theorem State.drawTaken_faulted (s : State) : (s.drawTaken).faulted = s.faulted := rfl
@[simp] theorem State.drawTaken_draws (s : State) : (s.drawTaken).draws = s.draws + 1 := rfl

/-! ### `State.setKey` -/

@[simp] theorem State.setKey_v (s : State) (k : Fin 16) (p : Bool) : (s.setKey k p).v = s.v := rfl
@[simp] theorem State.setKey_i (s : State) (k : Fin 16) (p : Bool) : (s.setKey k p).i = s.i := rfl
@[simp] theorem State.setKey_pc (s : State) (k : Fin 16) (p : Bool) : (s.setKey k p).pc = s.pc := rfl
@[simp] theorem State.setKey_sp (s : State) (k : Fin 16) (p : Bool) : (s.setKey k p).sp = s.sp := rfl
@[simp] theorem State.setKey_stack (s : State) (k : Fin 16) (p : Bool) : (s.setKey k p).stack = s.stack := rfl
@[simp] theorem State.setKey_dt (s : State) (k : Fin 16) (p : Bool) : (s.setKey k p).dt = s.dt := rfl
@[simp] theorem State.setKey_st (s : State) (k : Fin 16) (p : Bool) : (s.setKey k p).st = s.st := rfl
@[simp] theorem State.setKey_keys (s : State) (k : Fin 16) (p : Bool) : (s.setKey k p).keys = s.keys.set k.val p := rfl
@[simp] theorem State.setKey_display (s : State) (k : Fin 16) (p : Bool) : (s.setKey k p).display = s.display := rfl
@[simp] theorem State.setKey_mem (s : State) (k : Fin 16) (p : Bool) : (s.setKey k p).mem = s.mem := rfl
@[simp] theorem State.setKey_faulted (s : State) (k : Fin 16) (p : Bool) : (s.setKey k p).faulted = s.faulted := rfl
@[simp] theorem State.setKey_draws (s : State) (k : Fin 16) (p : Bool) : (s.setKey k p).draws = s.draws := rfl

/-! ### `State.tickTimers` -/

@[simp] theorem State.tickTimers_v (s : State) : (s.tickTimers).v = s.v := rfl
@[simp] theorem State.tickTimers_i (s : State) : (s.tickTimers).i = s.i := rfl
@[simp] theorem State.tickTimers_pc (s : State) : (s.tickTimers).pc = s.pc := rfl
@[simp] theorem State.tickTimers_sp (s : State) : (s.tickTimers).sp = s.sp := rfl
@[simp] theorem State.tickTimers_stack (s : State) : (s.tickTimers).stack = s.stack := rfl
@[simp] theorem State.tickTimers_dt (s : State) : (s.tickTimers).dt = tickTimer s.dt := rfl
@[simp] theorem State.tickTimers_st (s : State) : (s.tickTimers).st = tickTimer s.st := rfl
@[simp] theorem State.tickTimers_keys (s : State) : (s.tickTimers).keys = s.keys := rfl
@[simp] theorem State.tickTimers_display (s : State) : (s.tickTimers).display = s.display := rfl
@[simp] theorem State.tickTimers_mem (s : State) : (s.tickTimers).mem = s.mem := rfl
@[simp] theorem State.tickTimers_faulted (s : State) : (s.tickTimers).faulted = s.faulted := rfl
@[simp] theorem State.tickTimers_draws (s : State) : (s.tickTimers).draws = s.draws := rfl

/-! ### `State.loadImage` -/

@[simp] theorem State.loadImage_v (s : State) (bytes : List Byte) : (s.loadImage bytes).v = s.v := rfl
@[simp] theorem State.loadImage_i (s : State) (bytes : List Byte) : (s.loadImage bytes).i = s.i := rfl
@[simp] theorem State.loadImage_pc (s : State) (bytes : List Byte) : (s.loadImage bytes).pc = s.pc := rfl
@[simp] theorem State.loadImage_sp (s : State) (bytes : List Byte) : (s.loadImage bytes).sp = s.sp := rfl
@[simp] theorem State.loadImage_stack (s : State) (bytes : List Byte) : (s.loadImage bytes).stack = s.stack := rfl
@[simp] theorem State.loadImage_dt (s : State) (bytes : List Byte) : (s.loadImage bytes).dt = s.dt := rfl
@[simp] theorem State.loadImage_st (s : State) (bytes : List Byte) : (s.loadImage bytes).st = s.st := rfl
@[simp] theorem State.loadImage_keys (s : State) (bytes : List Byte) : (s.loadImage bytes).keys = s.keys := rfl
@[simp] theorem State.loadImage_display (s : State) (bytes : List Byte) : (s.loadImage bytes).display = s.display := rfl
@[simp] theorem State.loadImage_mem (s : State) (bytes : List Byte) : (s.loadImage bytes).mem = s.mem.writeBytes origin bytes := rfl
@[simp] theorem State.loadImage_faulted (s : State) (bytes : List Byte) : (s.loadImage bytes).faulted = s.faulted := rfl
@[simp] theorem State.loadImage_draws (s : State) (bytes : List Byte) : (s.loadImage bytes).draws = s.draws := rfl

/-! ### `State.placeWord` -/

@[simp] theorem State.placeWord_v (s : State) (w : Word) : (s.placeWord w).v = s.v := rfl
@[simp] theorem State.placeWord_i (s : State) (w : Word) : (s.placeWord w).i = s.i := rfl
@[simp] theorem State.placeWord_pc (s : State) (w : Word) : (s.placeWord w).pc = s.pc := rfl
@[simp] theorem State.placeWord_sp (s : State) (w : Word) : (s.placeWord w).sp = s.sp := rfl
@[simp] theorem State.placeWord_stack (s : State) (w : Word) : (s.placeWord w).stack = s.stack := rfl
@[simp] theorem State.placeWord_dt (s : State) (w : Word) : (s.placeWord w).dt = s.dt := rfl
@[simp] theorem State.placeWord_st (s : State) (w : Word) : (s.placeWord w).st = s.st := rfl
@[simp] theorem State.placeWord_keys (s : State) (w : Word) : (s.placeWord w).keys = s.keys := rfl
@[simp] theorem State.placeWord_display (s : State) (w : Word) : (s.placeWord w).display = s.display := rfl
@[simp] theorem State.placeWord_mem (s : State) (w : Word) : (s.placeWord w).mem = s.mem.writeBytes s.pc.toNat [hiByte w, loByte w] := rfl
@[simp] theorem State.placeWord_faulted (s : State) (w : Word) : (s.placeWord w).faulted = s.faulted := rfl
@[simp] theorem State.placeWord_draws (s : State) (w : Word) : (s.placeWord w).draws = s.draws := rfl

/-! ### `raiseFault` -/

@[simp] theorem raiseFault_v (e : Fault) (s : State) : (raiseFault e s).v = s.v := rfl
@[simp] theorem raiseFault_i (e : Fault) (s : State) : (raiseFault e s).i = s.i := rfl
@[simp] theorem raiseFault_pc (e : Fault) (s : State) : (raiseFault e s).pc = s.pc := rfl
@[simp] theorem raiseFault_sp (e : Fault) (s : State) : (raiseFault e s).sp = s.sp := rfl
@[simp] theorem raiseFault_stack (e : Fault) (s : State) : (raiseFault e s).stack = s.stack := rfl
@[simp] theorem raiseFault_dt (e : Fault) (s : State) : (raiseFault e s).dt = s.dt := rfl
@[simp] theorem raiseFault_st (e : Fault) (s : State) : (raiseFault e s).st = s.st := rfl
@[simp] theorem raiseFault_keys (e : Fault) (s : State) : (raiseFault e s).keys = s.keys := rfl
@[simp] theorem raiseFault_display (e : Fault) (s : State) : (raiseFault e s).display = s.display := rfl
@[simp] theorem raiseFault_mem (e : Fault) (s : State) : (raiseFault e s).mem = s.mem := rfl
@[simp] theorem raiseFault_faulted (e : Fault) (s : State) : (raiseFault e s).faulted = some e := rfl
@[simp] theorem raiseFault_draws (e : Fault) (s : State) : (raiseFault e s).draws = s.draws := rfl

/-! ### Reading a register after an update -/

/-- A written register reads as written, and every other one as before. -/
@[simp] theorem State.readV_writeV (s : State) (x y : Reg) (b : Byte) :
    (s.writeV x b).readV y = if y = x then b else s.readV y := by
  simp only [State.readV, State.writeV, Vector.getElem_set, Fin.ext_iff, eq_comm]

@[simp] theorem State.writeI_readV (s : State) (w : Word) (r : Reg) : (s.writeI w).readV r = s.readV r := rfl
@[simp] theorem State.writePc_readV (s : State) (w : Word) (r : Reg) : (s.writePc w).readV r = s.readV r := rfl
@[simp] theorem State.advance_readV (s : State) (r : Reg) : (s.advance).readV r = s.readV r := rfl
@[simp] theorem State.skipIf_readV (s : State) (c : Bool) (r : Reg) : (s.skipIf c).readV r = s.readV r := rfl
@[simp] theorem State.writeDt_readV (s : State) (b : Byte) (r : Reg) : (s.writeDt b).readV r = s.readV r := rfl
@[simp] theorem State.writeSt_readV (s : State) (b : Byte) (r : Reg) : (s.writeSt b).readV r = s.readV r := rfl
@[simp] theorem State.writeMem_readV (s : State) (m : Memory) (r : Reg) : (s.writeMem m).readV r = s.readV r := rfl
@[simp] theorem State.writeDisplay_readV (s : State) (d : Display) (r : Reg) : (s.writeDisplay d).readV r = s.readV r := rfl
@[simp] theorem State.drawTaken_readV (s : State) (r : Reg) : (s.drawTaken).readV r = s.readV r := rfl
@[simp] theorem State.setKey_readV (s : State) (k : Fin 16) (p : Bool) (r : Reg) : (s.setKey k p).readV r = s.readV r := rfl
@[simp] theorem State.tickTimers_readV (s : State) (r : Reg) : (s.tickTimers).readV r = s.readV r := rfl
@[simp] theorem State.loadImage_readV (s : State) (bytes : List Byte) (r : Reg) : (s.loadImage bytes).readV r = s.readV r := rfl
@[simp] theorem State.placeWord_readV (s : State) (w : Word) (r : Reg) : (s.placeWord w).readV r = s.readV r := rfl
@[simp] theorem raiseFault_readV (e : Fault) (s : State) (r : Reg) : (raiseFault e s).readV r = s.readV r := rfl
@[simp] theorem State.writeAllV_readV (s : State) (v : Vector Byte 16) (r : Reg) : (s.writeAllV v).readV r = v[r.val] := rfl

/-! ### Reading a key after an update -/

/-- A set key reads as set, and every other one as before. -/
@[simp] theorem State.key_setKey (s : State) (k j : Fin 16) (p : Bool) :
    (s.setKey k p).key j = if j = k then p else s.key j := by
  simp only [State.key, State.setKey, Vector.getElem_set, Fin.ext_iff, eq_comm]

@[simp] theorem State.writeV_key (s : State) (x : Reg) (b : Byte) (j : Fin 16) : (s.writeV x b).key j = s.key j := rfl
@[simp] theorem State.writeI_key (s : State) (w : Word) (j : Fin 16) : (s.writeI w).key j = s.key j := rfl
@[simp] theorem State.writePc_key (s : State) (w : Word) (j : Fin 16) : (s.writePc w).key j = s.key j := rfl
@[simp] theorem State.advance_key (s : State) (j : Fin 16) : (s.advance).key j = s.key j := rfl
@[simp] theorem State.skipIf_key (s : State) (c : Bool) (j : Fin 16) : (s.skipIf c).key j = s.key j := rfl
@[simp] theorem State.writeDt_key (s : State) (b : Byte) (j : Fin 16) : (s.writeDt b).key j = s.key j := rfl
@[simp] theorem State.writeSt_key (s : State) (b : Byte) (j : Fin 16) : (s.writeSt b).key j = s.key j := rfl
@[simp] theorem State.writeMem_key (s : State) (m : Memory) (j : Fin 16) : (s.writeMem m).key j = s.key j := rfl
@[simp] theorem State.writeAllV_key (s : State) (v : Vector Byte 16) (j : Fin 16) : (s.writeAllV v).key j = s.key j := rfl
@[simp] theorem State.writeDisplay_key (s : State) (d : Display) (j : Fin 16) : (s.writeDisplay d).key j = s.key j := rfl
@[simp] theorem State.drawTaken_key (s : State) (j : Fin 16) : (s.drawTaken).key j = s.key j := rfl
@[simp] theorem State.tickTimers_key (s : State) (j : Fin 16) : (s.tickTimers).key j = s.key j := rfl
@[simp] theorem State.loadImage_key (s : State) (bytes : List Byte) (j : Fin 16) : (s.loadImage bytes).key j = s.key j := rfl
@[simp] theorem State.placeWord_key (s : State) (w : Word) (j : Fin 16) : (s.placeWord w).key j = s.key j := rfl
@[simp] theorem raiseFault_key (e : Fault) (s : State) (j : Fin 16) : (raiseFault e s).key j = s.key j := rfl

end Sys2Proof.Machine
end

