-- ==== Sys2Proof/Laws/Ops.lean ====
section
/-! SUPPORT. One lemma for each shared operation, saying once everything it can do; provers cite these instead of
unfolding the operations. -/

namespace Sys2Proof.Machine

open Sys2Proof

/-! ### Committing a rule's result -/

@[simp] theorem commit_done (s t : State) : commit s (.done t) = .next t := rfl
@[simp] theorem commit_wait (s : State) : commit s .wait = .next s := rfl
@[simp] theorem commit_raised (s : State) (f : Fault) : commit s (.raised f) = .next (raiseFault f s) := rfl
@[simp] theorem ofExcept_ok {α : Type} (a : α) (k : α → RuleResult) : RuleResult.ofExcept (.ok a) k = k a := rfl
@[simp] theorem ofExcept_error {α : Type} (f : Fault) (k : α → RuleResult) :
    RuleResult.ofExcept (.error f) k = .raised f := rfl

/-- A rule's result always commits to a next state: the rule's own, the state before, or the state before with a
fault recorded. -/
theorem commit_cases (s : State) (r : RuleResult) :
    ∃ t, commit s r = .next t ∧ (r = .done t ∨ t = s ∨ ∃ f, t = raiseFault f s) := by
  cases r with
  | done t => exact ⟨t, rfl, .inl rfl⟩
  | wait => exact ⟨s, rfl, .inr (.inl rfl)⟩
  | raised f => exact ⟨raiseFault f s, rfl, .inr (.inr ⟨f, rfl⟩)⟩

/-! ### The stack -/

/-- A push with room writes the slot at `SP` and increments `SP`; nothing else changes (10_state.md R24). -/
theorem State.push_of_lt (s : State) (w : Word) (h : s.sp.val < 16) :
    s.push w = .ok { s with stack := s.stack.set s.sp.val w, sp := ⟨s.sp.val + 1, Nat.succ_lt_succ h⟩ } := by
  simp [State.push, h]

/-- A push on a full stack raises `StackOverflow(pc)` (R24). -/
theorem State.push_of_full (s : State) (w : Word) (h : s.sp.val = 16) : s.push w = .error (.stackOverflow s.pc) := by
  simp [State.push, h]

/-- A pop of a stack that is not empty decrements `SP` and gives the slot there; nothing else changes (R25). -/
theorem State.pop_of_pos (s : State) (h : 0 < s.sp.val) :
    s.pop = .ok (s.stack[s.sp.val - 1], { s with sp := ⟨s.sp.val - 1, by omega⟩ }) := by
  simp [State.pop, h]

/-- A pop of an empty stack raises `StackUnderflow(pc)` (R25). -/
theorem State.pop_of_empty (s : State) (h : s.sp.val = 0) : s.pop = .error (.stackUnderflow s.pc) := by
  simp [State.pop, h]

/-- Everything a push can do. -/
theorem State.push_cases (s : State) (w : Word) :
    (∃ h : s.sp.val < 16,
      s.push w = .ok { s with stack := s.stack.set s.sp.val w, sp := ⟨s.sp.val + 1, Nat.succ_lt_succ h⟩ }) ∨
    (s.sp.val = 16 ∧ s.push w = .error (.stackOverflow s.pc)) := by
  by_cases h : s.sp.val < 16
  · exact .inl ⟨h, s.push_of_lt w h⟩
  · exact .inr ⟨by omega, s.push_of_full w (by omega)⟩

/-- Everything a pop can do. -/
theorem State.pop_cases (s : State) :
    (∃ _ : 0 < s.sp.val, s.pop = .ok (s.stack[s.sp.val - 1], { s with sp := ⟨s.sp.val - 1, by omega⟩ })) ∨
    (s.sp.val = 0 ∧ s.pop = .error (.stackUnderflow s.pc)) := by
  by_cases h : 0 < s.sp.val
  · exact .inl ⟨h, s.pop_of_pos h⟩
  · exact .inr ⟨by omega, s.pop_of_empty (by omega)⟩

/-! ### Operands and flags -/

theorem keyIndex_of_lt {b : Byte} (h : b.toNat < 16) : keyIndex b = .ok ⟨b.toNat, h⟩ := by
  simp [keyIndex, h]

theorem keyIndex_of_ge {b : Byte} (h : 15 < b.toNat) : keyIndex b = .error (.keyIndexOutOfRange b) := by
  simp [keyIndex, Nat.not_lt.mpr h]

/-- Everything a key index check can do (46_keypad.md R110). -/
theorem keyIndex_cases (b : Byte) :
    (∃ k : Fin 16, keyIndex b = .ok k ∧ k.val = b.toNat) ∨
    (15 < b.toNat ∧ keyIndex b = .error (.keyIndexOutOfRange b)) := by
  by_cases h : b.toNat < 16
  · exact .inl ⟨_, keyIndex_of_lt h, rfl⟩
  · exact .inr ⟨by omega, keyIndex_of_ge (by omega)⟩

@[simp] theorem zextAddr_toNat (nnn : Addr12) : (zextAddr nnn).toNat = nnn.toNat := by
  have := nnn.isLt
  simp only [zextAddr, BitVec.truncate_eq_setWidth, BitVec.toNat_setWidth]
  omega

@[simp] theorem zextByte_toNat (b : Byte) : (zextByte b).toNat = b.toNat := by
  have := b.isLt
  simp only [zextByte, BitVec.truncate_eq_setWidth, BitVec.toNat_setWidth]
  omega

@[simp] theorem keyByte_toNat (k : Fin 16) : (keyByte k).toNat = k.val := by
  have := k.isLt
  simp only [keyByte, BitVec.toNat_ofNat]
  omega

/-- The lowest pressed key is pressed, and no key below it is (46_keypad.md R113). -/
theorem State.lowestPressed_eq_some {s : State} {k : Fin 16} :
    s.lowestPressed = some k ↔ s.key k = true ∧ ∀ j : Fin 16, j < k → s.key j = false := by
  unfold State.lowestPressed
  rw [List.find?_eq_some_iff_getElem]
  constructor
  · rintro ⟨h, i, hi, e, hj⟩
    refine ⟨h, fun j hjk => ?_⟩
    have hik : i = k.val := by
      have := congrArg Fin.val e
      simpa using this
    have hj' := hj j.val (by omega)
    simpa using hj'
  · rintro ⟨h, hj⟩
    refine ⟨h, k.val, by simp, by simp, fun j hjk => ?_⟩
    have := hj ⟨j, by omega⟩ hjk
    simpa using this

/-- There is no lowest pressed key exactly when no key is pressed. -/
theorem State.lowestPressed_eq_none {s : State} : s.lowestPressed = none ↔ ∀ k : Fin 16, s.key k = false := by
  simp [State.lowestPressed, List.find?_eq_none]

/-- The write-back of a shift is the spec's two sequential statements, under each value of `SHIFT_FLAG_ORDER`: with
`flag_last` the shifted value is written and then the flag; with `flag_first` the flag is written and then
`V[x]`, as it then stands, is shifted (43_register_alu.md R91 item 4, R100, R102). -/
theorem writeShift_eq_sequential (s : State) (x : Reg) (shift : Byte → Byte) (flag : Byte) :
    s.writeShift .flagLast x shift flag = (s.writeV x (shift (s.readV x))).writeV VF flag ∧
    s.writeShift .flagFirst x shift flag =
      (s.writeV VF flag).writeV x (shift ((s.writeV VF flag).readV x)) := by
  refine ⟨?_, ?_⟩
  · by_cases hx : x = VF
    · subst hx
      simp [State.writeShift, State.writeV]
    · simp [State.writeShift, hx]
  · rw [State.readV_writeV]
    by_cases hx : x = VF
    · subst hx
      simp [State.writeShift, State.writeV]
    · have hv : x.val ≠ 15 := fun h => hx (Fin.ext h)
      simp only [State.writeShift, hx, if_false, State.writeV]
      congr 1
      exact Vector.set_comm _ _ hv

/-- For a destination other than `VF` the two orders agree (R91 item 4). -/
theorem writeShift_order_irrelevant (s : State) (o o' : ShiftFlagOrder) {x : Reg} (hx : x ≠ VF)
    (shift : Byte → Byte) (flag : Byte) : s.writeShift o x shift flag = s.writeShift o' x shift flag := by
  simp [State.writeShift, hx]

/-! ### Loading and storing several registers -/

theorem getElem_loadRegs (v : Vector Byte 16) (j : Nat) (bs : List Byte) (k : Nat) (hk : k < 16) :
    (loadRegs v j bs)[k] = if j ≤ k then (bs[k - j]?).getD v[k] else v[k] := by
  induction bs generalizing v j with
  | nil => simp [loadRegs]
  | cons b bs ih =>
    rw [loadRegs, ih]
    by_cases h1 : k = j
    · subst h1
      simp
    · by_cases h2 : j + 1 ≤ k
      · obtain ⟨d, rfl⟩ := Nat.exists_eq_add_of_le h2
        have e1 : j + 1 + d - (j + 1) = d := by omega
        have e2 : j + 1 + d - j = d + 1 := by omega
        have e3 : j ≤ j + 1 + d := by omega
        have e4 : j ≠ j + 1 + d := by omega
        simp [e1, e2, e3, e4]
      · have h3 : ¬j ≤ k := by omega
        have h4 : j ≠ k := fun h => h1 h.symm
        simp [h2, h3, h4]

@[simp] theorem State.length_regsUpTo (s : State) (x : Reg) : (s.regsUpTo x).length = x.val + 1 := by
  simp [State.regsUpTo]

theorem State.getElem_regsUpTo (s : State) (x : Reg) (j : Nat) (h : j < (s.regsUpTo x).length) :
    (s.regsUpTo x)[j] = s.readV ⟨j, by simp at h; omega⟩ := by
  simp [State.regsUpTo, State.readV]

@[simp] theorem length_bcdDigits (b : Byte) : (bcdDigits b).length = 3 := rfl

/-! ### Fetch -/

/-- A fetch inside memory gives the big-endian word at `pc` (40_cycle.md R70; 20_memory.md R44). -/
theorem fetch_of_le {s : State} (h : s.pc.toNat + 2 ≤ 4096) :
    fetch s = .ok (wordOfBytes (s.mem.read s.pc.toNat) (s.mem.read (s.pc.toNat + 1))) := by
  simp [fetch, rangeFault_of_le (.inr h)]

/-- A fetch that reaches out of memory gives its fault (40_cycle.md R70). -/
theorem fetch_of_gt {s : State} (h : 4096 < s.pc.toNat + 2) :
    fetch s = .error (.memoryOutOfRange (max s.pc.toNat 4096)) := by
  simp [fetch, rangeFault_of_gt (by omega) h]

/-- The word placed at a fetchable `pc` is the word fetched there. -/
theorem fetch_placeWord (s : State) (w : Word) (h : s.pc.toNat + 2 ≤ 4096) : fetch (s.placeWord w) = .ok w := by
  rw [fetch_of_le (by simpa using h)]
  simp only [State.placeWord_pc, State.placeWord_mem]
  have e0 := Memory.read_writeBytes_inside s.mem s.pc.toNat 0 [hiByte w, loByte w] (by simp)
  have e1 := Memory.read_writeBytes_inside s.mem s.pc.toNat 1 [hiByte w, loByte w] (by simp)
  simp only [Nat.add_zero, List.getElem_cons_zero, List.getElem_cons_succ] at e0 e1
  rw [e0, e1, wordOfBytes_hiByte_loByte]

/-- A fetchable state can fetch, whatever it was made from. -/
theorem State.fetchable_pc_le (s : State) : s.fetchable.pc.toNat + 2 ≤ 4096 := by
  unfold State.fetchable memSize
  dsimp only
  split
  · assumption
  · decide

@[simp] theorem State.fetchable_faulted (s : State) : s.fetchable.faulted = none := rfl

/-! ### The step -/

theorem step_of_faulted {s : State} {f : Fault} (h : s.faulted = some f) :
    step s = .refused (.faultedStatus f) := by
  simp [step, h]

theorem step_of_fetch_error {s : State} {f : Fault} (h : s.faulted = none) (hf : fetch s = .error f) :
    step s = .next (raiseFault f s) := by
  simp [step, h, hf]

theorem step_of_unknown {s : State} {w : Word} (h : s.faulted = none) (hf : fetch s = .ok w)
    (hd : decode w = .unknown) : step s = .next (raiseFault (.unknownOpcode w) s) := by
  simp [step, h, hf, hd]

theorem step_of_instr {s : State} {w : Word} {i : Instr} (h : s.faulted = none) (hf : fetch s = .ok w)
    (hd : decode w = .instr i) : step s = exec i s := by
  simp [step, h, hf, hd]

/-- Everything a step can do. -/
theorem step_cases (s : State) :
    (∃ f, s.faulted = some f ∧ step s = .refused (.faultedStatus f)) ∨
    (s.faulted = none ∧
      ((∃ f, fetch s = .error f ∧ step s = .next (raiseFault f s)) ∨
       (∃ w, fetch s = .ok w ∧ decode w = .unknown ∧ step s = .next (raiseFault (.unknownOpcode w) s)) ∨
       (∃ w i, fetch s = .ok w ∧ decode w = .instr i ∧ step s = exec i s))) := by
  cases hf : s.faulted with
  | some f => exact .inl ⟨f, rfl, step_of_faulted hf⟩
  | none =>
    refine .inr ⟨rfl, ?_⟩
    cases he : fetch s with
    | error f => exact .inl ⟨f, rfl, step_of_fetch_error hf he⟩
    | ok w =>
      cases hd : decode w with
      | unknown => exact .inr (.inl ⟨w, rfl, hd, step_of_unknown hf he hd⟩)
      | instr i => exact .inr (.inr ⟨w, i, rfl, hd, step_of_instr hf he hd⟩)

/-! ### The fresh machine -/

/-- With the default `FONT`, `construct()` gives `State.reset` (10_state.md R36). -/
theorem construct_conventionalFont : State.construct conventionalFont = State.reset := by
  have h : Memory.ofFont conventionalFont = [] := by decide
  simp [State.construct, h, State.reset]

end Sys2Proof.Machine
end

