-- ==== Sys2Proof/Laws/PerInstr.lean ====
section
/-! SUPPORT. Statements made per instruction. Family `EncodeInRow`: the word of an instruction is a word of that
instruction's own row of the opcode table (30_encoding.md R60). -/

namespace Sys2Proof.Laws

open Sys2Proof

theorem wordA_masked (op : Nibble) (nnn : Addr12) : wordA op nnn &&& 0xF000#16 = wordA op 0 := by
  revert op
  simp only [wordA]
  intro op
  apply BitVec.eq_of_getLsbD_eq
  intro i hi
  simp only [BitVec.getLsbD_and, BitVec.getLsbD_append]
  interval_cases i <;> simp

theorem wordXK_masked (op : Nibble) (x : Reg) (kk : Byte) :
    wordXK op x kk &&& 0xF000#16 = wordA op 0 :=
  wordA_masked op _

theorem wordXK_lowMasked (op : Nibble) (x : Reg) (kk : Byte) :
    wordXK op x kk &&& 0xF0FF#16 = wordXK op 0 kk := by
  simp only [wordXK]
  apply BitVec.eq_of_getLsbD_eq
  intro i hi
  simp only [BitVec.getLsbD_and, BitVec.getLsbD_append]
  interval_cases i <;> simp

theorem wordXYN_masked (op : Nibble) (x y : Reg) (n : Nibble) :
    wordXYN op x y n &&& 0xF00F#16 = wordXYN op 0 0 n := by
  simp only [wordXYN]
  apply BitVec.eq_of_getLsbD_eq
  intro i hi
  simp only [BitVec.getLsbD_and, BitVec.getLsbD_append]
  interval_cases i <;> simp

/-! ### A masked word gives its fields -/

theorem fieldOp_of_maskA {w : Word} {op : Nibble} (h : w &&& 0xF000#16 = wordA op 0) : fieldOp w = op := by
  have m := wordA_masked (fieldOp w) (fieldNNN w)
  rw [wordA_fields, h] at m
  simpa using (congrArg fieldOp m).symm

theorem fields_of_maskXK {w : Word} {op : Nibble} {kk : Byte} (h : w &&& 0xF0FF#16 = wordXK op 0 kk) :
    fieldOp w = op ∧ fieldKK w = kk := by
  have m := wordXK_lowMasked (fieldOp w) (fieldX w).toFin (fieldKK w)
  rw [wordXK_fields, h] at m
  exact ⟨by simpa using (congrArg fieldOp m).symm, by simpa using (congrArg fieldKK m).symm⟩

theorem fields_of_maskXYN {w : Word} {op n : Nibble} (h : w &&& 0xF00F#16 = wordXYN op 0 0 n) :
    fieldOp w = op ∧ fieldN w = n := by
  have m := wordXYN_masked (fieldOp w) (fieldX w).toFin (fieldY w).toFin (fieldN w)
  rw [wordXYN_fields, h] at m
  exact ⟨by simpa using (congrArg fieldOp m).symm, by simpa using (congrArg fieldN m).symm⟩

/-! ### The family -/

/-- The word of the instruction lies in the instruction's row. -/
def EncodeInRow.Statement (i : Instr) : Prop := encode i &&& i.row.mask = i.row.pattern

theorem EncodeInRow.cls : EncodeInRow.Statement (.cls) :=
  by
  show _ &&& _ = _
  decide

theorem EncodeInRow.ret : EncodeInRow.Statement (.ret) :=
  by
  show _ &&& _ = _
  decide

theorem EncodeInRow.jp (nnn : Addr12) : EncodeInRow.Statement (.jp nnn) :=
  wordA_masked 0x1#4 nnn

theorem EncodeInRow.call (nnn : Addr12) : EncodeInRow.Statement (.call nnn) :=
  wordA_masked 0x2#4 nnn

theorem EncodeInRow.seImm (x : Reg) (kk : Byte) : EncodeInRow.Statement (.seImm x kk) :=
  wordXK_masked 0x3#4 x kk

theorem EncodeInRow.sneImm (x : Reg) (kk : Byte) : EncodeInRow.Statement (.sneImm x kk) :=
  wordXK_masked 0x4#4 x kk

theorem EncodeInRow.seReg (x : Reg) (y : Reg) : EncodeInRow.Statement (.seReg x y) :=
  wordXYN_masked 0x5#4 x y 0x0#4

theorem EncodeInRow.ldImm (x : Reg) (kk : Byte) : EncodeInRow.Statement (.ldImm x kk) :=
  wordXK_masked 0x6#4 x kk

theorem EncodeInRow.addImm (x : Reg) (kk : Byte) : EncodeInRow.Statement (.addImm x kk) :=
  wordXK_masked 0x7#4 x kk

theorem EncodeInRow.ldReg (x : Reg) (y : Reg) : EncodeInRow.Statement (.ldReg x y) :=
  wordXYN_masked 0x8#4 x y 0x0#4

theorem EncodeInRow.orReg (x : Reg) (y : Reg) : EncodeInRow.Statement (.orReg x y) :=
  wordXYN_masked 0x8#4 x y 0x1#4

theorem EncodeInRow.andReg (x : Reg) (y : Reg) : EncodeInRow.Statement (.andReg x y) :=
  wordXYN_masked 0x8#4 x y 0x2#4

theorem EncodeInRow.xorReg (x : Reg) (y : Reg) : EncodeInRow.Statement (.xorReg x y) :=
  wordXYN_masked 0x8#4 x y 0x3#4

theorem EncodeInRow.addReg (x : Reg) (y : Reg) : EncodeInRow.Statement (.addReg x y) :=
  wordXYN_masked 0x8#4 x y 0x4#4

theorem EncodeInRow.sub (x : Reg) (y : Reg) : EncodeInRow.Statement (.sub x y) :=
  wordXYN_masked 0x8#4 x y 0x5#4

theorem EncodeInRow.shr (x : Reg) (y : Reg) : EncodeInRow.Statement (.shr x y) :=
  wordXYN_masked 0x8#4 x y 0x6#4

theorem EncodeInRow.subn (x : Reg) (y : Reg) : EncodeInRow.Statement (.subn x y) :=
  wordXYN_masked 0x8#4 x y 0x7#4

theorem EncodeInRow.shl (x : Reg) (y : Reg) : EncodeInRow.Statement (.shl x y) :=
  wordXYN_masked 0x8#4 x y 0xE#4

theorem EncodeInRow.sneReg (x : Reg) (y : Reg) : EncodeInRow.Statement (.sneReg x y) :=
  wordXYN_masked 0x9#4 x y 0x0#4

theorem EncodeInRow.ldI (nnn : Addr12) : EncodeInRow.Statement (.ldI nnn) :=
  wordA_masked 0xA#4 nnn

theorem EncodeInRow.jpV0 (nnn : Addr12) : EncodeInRow.Statement (.jpV0 nnn) :=
  wordA_masked 0xB#4 nnn

theorem EncodeInRow.rnd (x : Reg) (kk : Byte) : EncodeInRow.Statement (.rnd x kk) :=
  wordXK_masked 0xC#4 x kk

theorem EncodeInRow.drw (x : Reg) (y : Reg) (n : Fin 16) : EncodeInRow.Statement (.drw x y n) :=
  wordXK_masked 0xD#4 x _

theorem EncodeInRow.skp (x : Reg) : EncodeInRow.Statement (.skp x) :=
  wordXK_lowMasked 0xE#4 x 0x9E#8

theorem EncodeInRow.sknp (x : Reg) : EncodeInRow.Statement (.sknp x) :=
  wordXK_lowMasked 0xE#4 x 0xA1#8

theorem EncodeInRow.ldVxDt (x : Reg) : EncodeInRow.Statement (.ldVxDt x) :=
  wordXK_lowMasked 0xF#4 x 0x07#8

theorem EncodeInRow.ldVxK (x : Reg) : EncodeInRow.Statement (.ldVxK x) :=
  wordXK_lowMasked 0xF#4 x 0x0A#8

theorem EncodeInRow.ldDtVx (x : Reg) : EncodeInRow.Statement (.ldDtVx x) :=
  wordXK_lowMasked 0xF#4 x 0x15#8

theorem EncodeInRow.ldStVx (x : Reg) : EncodeInRow.Statement (.ldStVx x) :=
  wordXK_lowMasked 0xF#4 x 0x18#8

theorem EncodeInRow.addI (x : Reg) : EncodeInRow.Statement (.addI x) :=
  wordXK_lowMasked 0xF#4 x 0x1E#8

theorem EncodeInRow.ldF (x : Reg) : EncodeInRow.Statement (.ldF x) :=
  wordXK_lowMasked 0xF#4 x 0x29#8

theorem EncodeInRow.ldB (x : Reg) : EncodeInRow.Statement (.ldB x) :=
  wordXK_lowMasked 0xF#4 x 0x33#8

theorem EncodeInRow.ldMemVx (x : Reg) : EncodeInRow.Statement (.ldMemVx x) :=
  wordXK_lowMasked 0xF#4 x 0x55#8

theorem EncodeInRow.ldVxMem (x : Reg) : EncodeInRow.Statement (.ldVxMem x) :=
  wordXK_lowMasked 0xF#4 x 0x65#8

end Sys2Proof.Laws
end

