-- ==== Sys2Proof/Laws/Safety.lean ====
section
/-! SUPPORT. The small lemmas of the terms claims use: the word at `pc`, what a step that answers a next state did,
and frames. -/

namespace Sys2Proof.Machine

open Sys2Proof

/-- A fetch inside memory gives the word at `pc`. -/
theorem fetch_eq_wordAtPc {s : State} (h : s.pc.toNat + 1 < 4096) : fetch s = .ok s.wordAtPc :=
  fetch_of_le (by omega)

/-- A step that answers a next state started without a fault, and it raised one of its own or ran the instruction
at `pc`. -/
theorem step_next_cases {s t : State} (h : step s = .next t) :
    s.faulted = none ∧
      ((∃ f, t = raiseFault f s) ∨
        ∃ i, s.pc.toNat + 1 < 4096 ∧ decode s.wordAtPc = .instr i ∧ exec i s = .next t) := by
  rcases step_cases s with ⟨g, -, e⟩ | ⟨hn, ⟨g, -, e⟩ | ⟨w, -, -, e⟩ | ⟨w, i, hw, hd, e⟩⟩
  · rw [e] at h
    cases h
  · rw [e] at h
    injection h with h
    exact ⟨hn, .inl ⟨_, h.symm⟩⟩
  · rw [e] at h
    injection h with h
    exact ⟨hn, .inl ⟨_, h.symm⟩⟩
  · rw [e] at h
    by_cases hp : s.pc.toNat + 2 ≤ 4096
    · rw [fetch_of_le hp] at hw
      injection hw with hw
      subst hw
      exact ⟨hn, .inr ⟨i, by omega, hd, h⟩⟩
    · rw [fetch_of_gt (by omega)] at hw
      cases hw

theorem OnlyChanges.mono {cs ds : List Part} {s t : State} (h : OnlyChanges cs s t) (hsub : ∀ p ∈ cs, p ∈ ds) :
    OnlyChanges ds s t :=
  fun p hp => h p fun hc => hp (hsub p hc)

theorem OnlyChanges.refl (cs : List Part) (s : State) : OnlyChanges cs s s := by
  intro p _
  cases p <;> simp [Part.same]

theorem OnlyChanges.raiseFault (f : Fault) (s : State) : OnlyChanges [.faulted] s (raiseFault f s) := by
  intro p hp
  cases p <;> simp_all [Part.same]

end Sys2Proof.Machine
end

