-- ==== Sys2Proof/Tests/Slice0.lean ====
section
/-! SUPPORT. Small tests, with expected results from the worked examples and vectors of spec/95_test_vectors.md (named
in each group by the vector's id), and one witness for each statement that has hypotheses. -/

namespace Sys2Proof.Tests

open Sys2Proof Sys2Proof.Machine

/-! ### Small states -/

/-- The reset state with some registers set. -/
def withV : List (Reg × Byte) → State
  | [] => State.reset
  | (r, b) :: rest => (withV rest).writeV r b

/-- The reset state with some bytes of memory set from an address on. -/
def withBytes (a : Nat) (bs : List Byte) : State := State.reset.writeMem (Memory.writeBytes [] a bs)

/-- One step of the word, placed where the step fetches, answers a next state of which the check holds. -/
def oneStep (w : Nat) (s : State) (check : State → Bool) : Bool :=
  match step (s.withFetchWord 16 w) with
  | .next t => check t
  | .fault _ => false
  | .refused _ => false

/-- One step of the word raises the fault and changes nothing else. -/
def Raises (w : Nat) (s : State) (f : Fault) : Prop :=
  step (s.withFetchWord 16 w) = .next { s.withFetchWord 16 w with faulted := some f }

/-! ### WellFormed refuses, one ill-formed term for each check -/

theorem test_wfKeyId : wfKeyId 15 = true ∧ wfKeyId 16 = false := by decide

theorem test_wfImage : wfImage (List.replicate 3584 0) = true ∧ wfImage (List.replicate 3585 0) = false := by
  simp only [wfImage, List.length_replicate]
  decide

/-! ### Decoding: words written out from 30_encoding.md R60, and illegal words of R62 (C1, C5 to C9) -/

theorem test_decode_words :
    decode 0b1101000000010101 = .instr (.drw 0 1 5) ∧ decode 0b0010001000010000 = .instr (.call 0x210) ∧
    decode 0b1000010011110110 = .instr (.shr 4 15) ∧ decode 0b1111000100011110 = .instr (.addI 1) ∧
    decode 0b1100001100001111 = .instr (.rnd 3 0x0F) ∧ decode 0b1110000010011110 = .instr (.skp 0) ∧
    decode 0b1111001001010101 = .instr (.ldMemVx 2) := by decide

theorem test_decode_unknown :
    decode 0x0000 = .unknown ∧ decode 0x5121 = .unknown ∧ decode 0x8128 = .unknown ∧ decode 0x0123 = .unknown ∧
    decode 0xE19F = .unknown ∧ decode 0xF1FF = .unknown ∧ decode 0x912F = .unknown := by decide

theorem test_decode_bytes :
    decodeBytes [0x13, 0x00, 0xAA] = .instr (.jp 0x300) [0xAA] ∧ decodeBytes [0x13] = .truncated ∧
    decodeBytes [0x01, 0x23] = .unknown 0x0123 := by decide

theorem test_encode :
    encode (.drw 0 1 5) = 0xD015 ∧ encode (.ldVxMem 2) = 0xF265 ∧ encode (.shl 4 0) = 0x840E ∧
    encode (.jpV0 0xFFF) = 0xBFFF := by decide

/-! ### The cycle (C2 to C4, C10, C12, B6) -/

theorem test_fetch_last_word :
    oneStep 0x1FFE (State.reset.writePc 0xFFE) (fun t => t.pc = 0xFFE) = true := by decide

theorem test_fetch_past_the_end :
    step (State.reset.writePc 0xFFF) = .next { State.reset with pc := 0xFFF, faulted := some (.memoryOutOfRange 0x1000) } ∧
    step (State.reset.writePc 0x1002) =
      .next { State.reset with pc := 0x1002, faulted := some (.memoryOutOfRange 0x1002) } := ⟨rfl, rfl⟩

theorem test_odd_pc :
    oneStep 0x6007 (State.reset.writePc 0x201) (fun t => t.readV 0 = 0x07 && t.pc = 0x203) = true := by decide

theorem test_faulted_is_refused :
    step { State.reset with faulted := some (.unknownOpcode 0) } = .refused (.faultedStatus (.unknownOpcode 0)) := rfl

theorem test_nothing_loaded : step State.reset = .next { State.reset with faulted := some (.unknownOpcode 0) } := rfl

/-! ### Display (D1 to D5, L1.5) -/

theorem test_cls :
    oneStep 0x00E0 ((withV [(15, 0x77)]).writeDisplay
      ((Display.cleared.setPixel 5 5 true).setPixel 63 31 true))
      (fun t => t.display = Display.cleared && t.readV 15 = 0x77 && t.pc = 0x202) = true := by decide

theorem test_drw_wraps :
    oneStep 0xD122 (withV [(1, 0x3E), (2, 0x1F)])
      (fun t => t.display.pixel 62 31 && t.display.pixel 63 31 && t.display.pixel 0 31 && t.display.pixel 1 31 &&
        !t.display.pixel 2 31 && t.display.pixel 62 0 && !t.display.pixel 63 0 && t.display.pixel 1 0 &&
        t.readV 15 = 0) = true := by decide

theorem test_drw_collides :
    oneStep 0xD001 ((withBytes 0x300 [0x60]).writeI 0x300 |>.writeDisplay (Display.cleared.setPixel 1 0 true))
      (fun t => !t.display.pixel 1 0 && t.display.pixel 2 0 && t.readV 15 = 1) = true := by decide

theorem test_drw_edges :
    oneStep 0xD000 (State.reset.writeI 0xFFFF) (fun t => t.readV 15 = 0 && t.pc = 0x202) = true ∧
    Raises 0xD003 (State.reset.writeI 0xFFE) (.memoryOutOfRange 0x1000) := ⟨by decide, rfl⟩

/-! ### Control flow (F1 to F16) -/

theorem test_ret_of_empty : Raises 0x00EE State.reset (.stackUnderflow 0x200) := rfl

theorem test_ret :
    oneStep 0x00EE { State.reset with pc := 0x300, sp := 4, stack := State.reset.stack.set 3 0x204 }
      (fun t => t.pc = 0x204 && t.sp = 3 && t.stack[3] = 0x204) = true := by decide

theorem test_jp : oneStep 0x1300 State.reset (fun t => t.pc = 0x300) = true := by decide

theorem test_call :
    oneStep 0x2300 { State.reset with pc := 0x204, sp := 3 }
      (fun t => t.pc = 0x300 && t.sp = 4 && t.stack[3] = 0x204) = true := by decide

theorem test_call_of_full : Raises 0x2300 { State.reset with sp := 16 } (.stackOverflow 0x200) := rfl

theorem test_se_imm :
    oneStep 0x3342 (withV [(3, 0x42)]) (fun t => t.pc = 0x204) = true ∧
    oneStep 0x3342 (withV [(3, 0x41)]) (fun t => t.pc = 0x202) = true := by decide

theorem test_sne_imm :
    oneStep 0x4342 (withV [(3, 0x41)]) (fun t => t.pc = 0x204) = true ∧
    oneStep 0x4342 (withV [(3, 0x42)]) (fun t => t.pc = 0x202) = true := by decide

theorem test_se_reg :
    oneStep 0x5120 (withV [(1, 0x10), (2, 0x10)]) (fun t => t.pc = 0x204) = true ∧
    Raises 0x5121 State.reset (.unknownOpcode 0x5121) := ⟨by decide, rfl⟩

theorem test_sne_reg :
    oneStep 0x9120 (withV [(1, 0x10), (2, 0x11)]) (fun t => t.pc = 0x204) = true ∧
    oneStep 0x9120 (withV [(1, 0x10), (2, 0x10)]) (fun t => t.pc = 0x202) = true := by decide

theorem test_jp_v0 :
    oneStep 0xB300 (withV [(0, 0x10)]) (fun t => t.pc = 0x310) = true ∧
    oneStep 0xBFFF (withV [(0, 0xFF)]) (fun t => t.pc = 0x10FE) = true := by decide

/-! ### Register loads and arithmetic (A1 to A25) -/

theorem test_ld_imm : oneStep 0x65AB State.reset (fun t => t.readV 5 = 0xAB && t.pc = 0x202) = true := by decide

theorem test_add_imm :
    oneStep 0x7501 (withV [(5, 0xFF), (15, 0x77)]) (fun t => t.readV 5 = 0x00 && t.readV 15 = 0x77) = true ∧
    oneStep 0x7FF5 (withV [(15, 0x10)]) (fun t => t.readV 15 = 0x05) = true := by decide

theorem test_ld_reg : oneStep 0x8120 (withV [(2, 0x33)]) (fun t => t.readV 1 = 0x33) = true := by decide

theorem test_or :
    oneStep 0x8121 (withV [(1, 0xF0), (2, 0x0F), (15, 0x77)]) (fun t => t.readV 1 = 0xFF && t.readV 15 = 0x77) = true := by
  decide

theorem test_and : oneStep 0x8122 (withV [(1, 0xF0), (2, 0x3C)]) (fun t => t.readV 1 = 0x30) = true := by decide

theorem test_xor :
    oneStep 0x8123 (withV [(1, 0xFF), (2, 0x0F)]) (fun t => t.readV 1 = 0xF0) = true ∧
    oneStep 0x8113 (withV [(1, 0x55)]) (fun t => t.readV 1 = 0x00) = true := by decide

theorem test_add_reg :
    oneStep 0x8124 (withV [(1, 0x80), (2, 0x80)]) (fun t => t.readV 1 = 0x00 && t.readV 15 = 1) = true ∧
    oneStep 0x8124 (withV [(1, 0xFF), (2, 0x00)]) (fun t => t.readV 1 = 0xFF && t.readV 15 = 0) = true := by decide

theorem test_add_reg_vf :
    oneStep 0x8F14 (withV [(15, 0xFF), (1, 0x01)]) (fun t => t.readV 15 = 1) = true ∧
    oneStep 0x81F4 (withV [(15, 0x01), (1, 0xFF)]) (fun t => t.readV 1 = 0x00 && t.readV 15 = 1) = true := by decide

theorem test_sub :
    oneStep 0x8125 (withV [(1, 0x05), (2, 0x05)]) (fun t => t.readV 1 = 0x00 && t.readV 15 = 1) = true ∧
    oneStep 0x8125 (withV [(1, 0x00), (2, 0x01)]) (fun t => t.readV 1 = 0xFF && t.readV 15 = 0) = true := by decide

theorem test_sub_vf : oneStep 0x8F15 (withV [(15, 0x10), (1, 0x01)]) (fun t => t.readV 15 = 1) = true := by decide

theorem test_subn :
    oneStep 0x8127 (withV [(1, 0x05), (2, 0x0A)]) (fun t => t.readV 1 = 0x05 && t.readV 15 = 1) = true ∧
    oneStep 0x8127 (withV [(1, 0x0A), (2, 0x05)]) (fun t => t.readV 1 = 0xFB && t.readV 15 = 0) = true := by decide

/-- A18, A19, and C11: the `y` field is not used. -/
theorem test_shr :
    oneStep 0x8126 (withV [(1, 0x03), (2, 0xAA)]) (fun t => t.readV 1 = 0x01 && t.readV 15 = 1) = true ∧
    oneStep 0x8106 (withV [(1, 0x02)]) (fun t => t.readV 1 = 0x01 && t.readV 15 = 0) = true := by decide

/-- A20, A25: a shift of `VF` under each value of `SHIFT_FLAG_ORDER`. -/
theorem test_shifts_of_vf :
    ((withV [(15, 0x03)]).writeShift .flagLast 15 (fun b => b >>> 1) (shiftedOutRight 0x03)).readV 15 = 1 ∧
    ((withV [(15, 0x03)]).writeShift .flagFirst 15 (fun b => b >>> 1) (shiftedOutRight 0x03)).readV 15 = 0 ∧
    ((withV [(15, 0x81)]).writeShift .flagLast 15 (fun b => b <<< 1) (shiftedOutLeft 0x81)).readV 15 = 1 ∧
    ((withV [(15, 0x81)]).writeShift .flagFirst 15 (fun b => b <<< 1) (shiftedOutLeft 0x81)).readV 15 = 2 := by decide

theorem test_shl :
    oneStep 0x810E (withV [(1, 0x81)]) (fun t => t.readV 1 = 0x02 && t.readV 15 = 1) = true ∧
    oneStep 0x810E (withV [(1, 0x40)]) (fun t => t.readV 1 = 0x80 && t.readV 15 = 0) = true := by decide

/-! ### Address register, random source, timers (I1 to I6, T2, T5 to T9) -/

theorem test_ld_i : oneStep 0xA123 State.reset (fun t => t.i = 0x0123) = true := by decide

theorem test_add_i :
    oneStep 0xF11E ((withV [(1, 0x01), (15, 0x77)]).writeI 0xFFFF) (fun t => t.i = 0x0000 && t.readV 15 = 0x77) = true ∧
    oneStep 0xF11E ((withV [(1, 0x01)]).writeI 0x0FFF) (fun t => t.i = 0x1000 && t.faulted = none) = true := by decide

theorem test_ld_f :
    oneStep 0xF129 (withV [(1, 0x10)]) (fun t => t.i = 0x0050) = true ∧
    oneStep 0xF129 (withV [(1, 0xFF)]) (fun t => t.i = 0x04FB) = true := by decide

/-- The draw has no value: only a mask of 0 fixes the result. -/
theorem test_rnd :
    ∃ t, exec (.rnd 3 0x00) State.reset = .next t ∧ t.readV 3 = 0x00 ∧ t.draws = 1 ∧ t.pc = 0x202 :=
  ⟨_, rfl, by simp, rfl, rfl⟩

theorem test_ld_vx_dt : oneStep 0xF007 (State.reset.writeDt 0x3C) (fun t => t.readV 0 = 0x3C && t.dt = 0x3C) = true := by
  decide

theorem test_ld_dt : oneStep 0xF115 (withV [(1, 0x05)]) (fun t => t.dt = 5 && t.st = 0) = true := by decide

theorem test_ld_st : oneStep 0xF118 (State.reset.writeSt 9) (fun t => t.st = 0) = true := by decide

theorem test_tick :
    tickTimer 1 = 0 ∧ tickTimer 0 = 0 ∧ tickTimer 0xFF = 0xFE := by decide

/-! ### Keypad (K1 to K10, K12) -/

theorem test_skp :
    oneStep 0xE09E ((withV [(0, 5)]).setKey 5 true) (fun t => t.pc = 0x204) = true ∧
    Raises 0xE09E (withV [(0, 0x10)]) (.keyIndexOutOfRange 0x10) := ⟨by decide, rfl⟩

theorem test_sknp :
    oneStep 0xE0A1 ((withV [(0, 5)]).setKey 5 true) (fun t => t.pc = 0x202) = true ∧
    Raises 0xE0A1 (withV [(0, 0xFF)]) (.keyIndexOutOfRange 0xFF) := ⟨by decide, rfl⟩

theorem test_key_wait :
    step (State.reset.withFetchWord 16 0xF30A) = .next (State.reset.withFetchWord 16 0xF30A) ∧
    oneStep 0xF30A ((State.reset.setKey 9 true).setKey 4 true) (fun t => t.readV 3 = 4 && t.pc = 0x202) = true :=
  ⟨rfl, by decide⟩

theorem test_press_outside_the_set :
    hostOp conventionalFont (.pressKey 16) State.reset = .refused (.keyIdOutOfSet 16) := rfl

/-! ### Memory transfer (M2, M6, M8, M10 to M13) -/

theorem test_ld_b :
    oneStep 0xF033 ((withV [(0, 255)]).writeI 0x300)
      (fun t => t.mem.read 0x300 = 2 && t.mem.read 0x301 = 5 && t.mem.read 0x302 = 5 && t.i = 0x300) = true ∧
    Raises 0xF033 ((withV [(0, 123)]).writeI 0xFFE) (.memoryOutOfRange 0x1000) := ⟨by decide, rfl⟩

theorem test_ld_mem :
    oneStep 0xF255 ((withV [(0, 1), (1, 2), (2, 3), (3, 9)]).writeI 0x400)
      (fun t => t.mem.read 0x400 = 1 && t.mem.read 0x401 = 2 && t.mem.read 0x402 = 3 && t.mem.read 0x403 = 0 &&
        t.i = 0x400) = true ∧
    Raises 0xFF55 (State.reset.writeI 0xFF1) (.memoryOutOfRange 0x1000) := ⟨by decide, rfl⟩

theorem test_ld_vx_mem :
    oneStep 0xF465 (withV [(5, 0x55)])
      (fun t => t.readV 0 = 0xF0 && t.readV 1 = 0x90 && t.readV 3 = 0x90 && t.readV 4 = 0xF0 && t.readV 5 = 0x55) = true ∧
    Raises 0xF065 (State.reset.writeI 0x1000) (.memoryOutOfRange 0x1000) := ⟨by decide, rfl⟩

/-- A write of the value an unlisted address reads as removes the entry. -/
theorem test_memory_form :
    Memory.writeBytes [] 0x300 [1, 2] = [(0x300, 1), (0x301, 2)] ∧
    (Memory.writeBytes [] 0x300 [1, 2]).write 0x300 0 = [(0x301, 2)] ∧ Memory.write [] 0 0xF0 = [] := by decide

/-! ### Loading (B2, B4) -/

theorem test_load :
    hostOp conventionalFont (.load [0x60, 0x07]) State.reset =
      .next ({ State.reset with mem := [(0x200, 0x60), (0x201, 0x07)] }, .ok) := rfl

theorem test_load_too_large :
    hostOp conventionalFont (.load (List.replicate 3585 0)) State.reset =
      .next ({ State.reset with faulted := some (.loadTooLarge 3585) }, .fault 5 3585) := by
  simp only [hostOp, hostLoad, List.length_replicate]
  rfl

/-! ### Witnesses: for each statement with hypotheses, concrete values that meet all of them together, one for each
clause, at the ends of its range -/

/-- A state about to run the word at the `pc`. -/
def about (w : Nat) (s : State) : State := s.withFetchWord 16 w

/-- A faulted state. -/
def faultedState : State := { State.reset with faulted := some (.stackUnderflow 0x200) }

theorem witness_EncodeOfDecode : decode 0x81F6 = .instr (.shr 1 15) ∧ decode 0xFF65 = .instr (.ldVxMem 15) := by decide

theorem witness_DecoderAgreesWithTheOpcodeTable :
    (Instr.row .cls ∈ opcodeTable ∧ (Instr.row .cls).accepts 0x00E0 = true) ∧ decode 0xDFFF = .instr (.drw 15 15 15) ∧
    decode 0xF0FF = .unknown := by decide

theorem witness_StepRunsTheDecodedInstruction :
    (about 0x1FFE (State.reset.writePc 0xFFE)).faulted = none ∧
    (about 0x1FFE (State.reset.writePc 0xFFE)).pc.toNat + 1 < 4096 ∧
    decode (about 0x1FFE (State.reset.writePc 0xFFE)).wordAtPc = .instr (.jp 0xFFE) := by decide

theorem witness_StepFetchesDecodesOrStops :
    faultedState.faulted = some (.stackUnderflow 0x200) ∧
    ((State.reset.writePc 0xFFF).faulted = none ∧ 4096 ≤ (State.reset.writePc 0xFFF).pc.toNat + 1) ∧
    (State.reset.faulted = none ∧ State.reset.pc.toNat + 1 < 4096 ∧ decode State.reset.wordAtPc = .unknown) ∧
    (about 0x6007 (State.reset.writePc 0x201)).faulted = none ∧
    (about 0x6007 (State.reset.writePc 0x201)).pc.toNat + 1 < 4096 ∧
    decode (about 0x6007 (State.reset.writePc 0x201)).wordAtPc = .instr (.ldImm 0 0x07) := by decide

theorem witness_SysWordsFault :
    (about 0x0FFF State.reset).faulted = none ∧ (about 0x0FFF State.reset).pc.toNat + 1 < 4096 ∧
    (about 0x0FFF State.reset).wordAtPc.toNat < 0x1000 ∧ (about 0x0FFF State.reset).wordAtPc.toNat ≠ 0x00E0 ∧
    (about 0x0FFF State.reset).wordAtPc.toNat ≠ 0x00EE := by decide

theorem witness_WithFetchWordRunsTheWord : decodeTableWord 16 0xFF65 = some (.ldVxMem 15) := by decide

theorem witness_ClsUnlightsEveryPixel : (0x00E0 : Word).toNat = 0x00E0 := by decide

/-- A word; the access of 0 rows above memory, the last that fits and the first that does not; a covered pixel that is
lit; and a display with no lit pixel at all. -/
theorem witness_DrwXorsTheSpriteAndReportsCollision :
    (0xDFFF : Word).toNat = 0xD000 + 256 * (15 : Reg).val + 16 * (15 : Reg).val + (15 : Fin 16).val ∧
    ((0 : Fin 16).val = 0 ∨ (State.reset.writeI 0xFFFF).i.toNat + (0 : Fin 16).val ≤ 4096) ∧
    ((15 : Fin 16).val = 0 ∨ (State.reset.writeI 0xFF1).i.toNat + (15 : Fin 16).val ≤ 4096) ∧
    (0 < (15 : Fin 16).val ∧ 4096 < (State.reset.writeI 0xFF2).i.toNat + (15 : Fin 16).val) ∧
    (State.reset.writeDisplay (Display.cleared.setPixel 3 4 true)).display.pixel 3 4 = true ∧
    State.reset.display = Display.cleared := by decide

theorem witness_sprite_covers :
    SpriteCovers (State.reset.writeDisplay (Display.cleared.setPixel 3 4 true)) 0 1 5 3 4 :=
  ⟨4, 3, by decide⟩

theorem witness_no_covered_pixel_is_lit :
    ¬∃ (px : Fin 64) (py : Fin 32), SpriteCovers State.reset 0 1 5 px py ∧ State.reset.display.pixel px py = true := by
  rintro ⟨px, py, -, h⟩
  exact Bool.noConfusion ((Display.pixel_cleared px py).symm.trans h)

/-- The cleared display has covered pixels that are unlit; with no row drawn no pixel is covered. -/
theorem witness_DrawingTwiceRestoresTheDisplay :
    ((0 : Reg) ≠ VF ∧ (1 : Reg) ≠ VF ∧ State.reset.i.toNat + (5 : Fin 16).val ≤ 4096) ∧
    (SpriteCovers State.reset 0 1 5 3 4 ∧ State.reset.display.pixel 3 4 = false) ∧
    ¬∃ (px : Fin 64) (py : Fin 32), SpriteCovers State.reset 0 1 0 px py ∧ State.reset.display.pixel px py = false :=
  ⟨by decide, ⟨⟨4, 3, by decide⟩, by decide⟩, by
    rintro ⟨px, py, ⟨row, col, h, -⟩, -⟩
    exact absurd h (Nat.not_lt_zero row)⟩

theorem witness_RetPopsThePc :
    (0x00EE : Word).toNat = 0x00EE ∧ ({ State.reset with sp := 16 } : State).sp.val = (15 : Fin 16).val + 1 ∧
    ({ State.reset with sp := 1 } : State).sp.val = (0 : Fin 16).val + 1 ∧ State.reset.sp.val = 0 := by decide

theorem witness_JpSetsThePc : (0x1FFF : Word).toNat = 0x1000 + (0xFFF : Addr12).toNat := by decide

theorem witness_CallPushesItsOwnAddress :
    (0x2FFF : Word).toNat = 0x2000 + (0xFFF : Addr12).toNat ∧ ({ State.reset with sp := 15 } : State).sp.val < 16 ∧
    ({ State.reset with sp := 16 } : State).sp.val = 16 := by decide

theorem witness_CallThenRetComesBackToTheCall : ({ State.reset with sp := 15 } : State).sp.val < 16 := by decide

theorem witness_ImmediateSkips :
    (0x3FFF : Word).toNat = 0x3000 + 256 * (15 : Reg).val + (0xFF : Byte).toNat ∧
    (0x4FFF : Word).toNat = 0x4000 + 256 * (15 : Reg).val + (0xFF : Byte).toNat := by decide

theorem witness_RegisterSkips :
    (0x5FF0 : Word).toNat = 0x5000 + 256 * (15 : Reg).val + 16 * (15 : Reg).val ∧
    (0x9FF0 : Word).toNat = 0x9000 + 256 * (15 : Reg).val + 16 * (15 : Reg).val ∧
    (((0x5001 : Word).toNat / 0x1000 = 0x5 ∨ (0x5001 : Word).toNat / 0x1000 = 0x9) ∧ (0x5001 : Word).toNat % 16 ≠ 0) ∧
    ((0x9FFF : Word).toNat / 0x1000 = 0x5 ∨ (0x9FFF : Word).toNat / 0x1000 = 0x9) ∧ (0x9FFF : Word).toNat % 16 ≠ 0 := by
  decide

theorem witness_JpV0AddsExactly : (0xBFFF : Word).toNat = 0xB000 + (0xFFF : Addr12).toNat := by decide

theorem witness_RegisterLoads :
    (0x6FFF : Word).toNat = 0x6000 + 256 * (15 : Reg).val + (0xFF : Byte).toNat ∧
    (0x8FF0 : Word).toNat = 0x8000 + 256 * (15 : Reg).val + 16 * (15 : Reg).val := by decide

theorem witness_AddImmediateWrapsWithoutAFlag :
    (0x7FFF : Word).toNat = 0x7000 + 256 * (15 : Reg).val + (0xFF : Byte).toNat := by decide

theorem witness_BitwiseOperations :
    (0x8FF1 : Word).toNat = 0x8001 + 256 * (15 : Reg).val + 16 * (15 : Reg).val ∧
    (0x8FF2 : Word).toNat = 0x8002 + 256 * (15 : Reg).val + 16 * (15 : Reg).val ∧
    (0x8FF3 : Word).toNat = 0x8003 + 256 * (15 : Reg).val + 16 * (15 : Reg).val := by decide

theorem witness_AddSetsTheCarry :
    (0x8FF4 : Word).toNat = 0x8004 + 256 * (15 : Reg).val + 16 * (15 : Reg).val ∧ (14 : Reg) ≠ VF := by decide

theorem witness_SubtractionsSetNoBorrow :
    (0x8FF5 : Word).toNat = 0x8005 + 256 * (15 : Reg).val + 16 * (15 : Reg).val ∧
    (0x8FF7 : Word).toNat = 0x8007 + 256 * (15 : Reg).val + 16 * (15 : Reg).val ∧ (14 : Reg) ≠ VF := by decide

theorem witness_ShrShiftsRightIntoVf :
    (0x8FF6 : Word).toNat = 0x8006 + 256 * (15 : Reg).val + 16 * (15 : Reg).val ∧ (14 : Reg) ≠ VF ∧ (15 : Reg) = VF := by
  decide

theorem witness_ShlShiftsLeftIntoVf :
    (0x8FFE : Word).toNat = 0x800E + 256 * (15 : Reg).val + 16 * (15 : Reg).val ∧ (14 : Reg) ≠ VF ∧ (15 : Reg) = VF := by
  decide

theorem witness_AddressRegisterInstructions :
    (0xAFFF : Word).toNat = 0xA000 + (0xFFF : Addr12).toNat ∧
    (0xFF1E : Word).toNat = 0xF01E + 256 * (15 : Reg).val ∧ (0xFF29 : Word).toNat = 0xF029 + 256 * (15 : Reg).val := by
  decide

theorem witness_RndMasksOneFreshDraw :
    (0xCF7F : Word).toNat = 0xC000 + 256 * (15 : Reg).val + (0x7F : Byte).toNat ∧
    (0x7F : Byte).getLsbD (7 : Fin 8).val = false := by decide

theorem witness_TimerInstructions :
    (0xFF07 : Word).toNat = 0xF007 + 256 * (15 : Reg).val ∧ (0xFF15 : Word).toNat = 0xF015 + 256 * (15 : Reg).val ∧
    (0xFF18 : Word).toNat = 0xF018 + 256 * (15 : Reg).val := by decide

theorem witness_KeySkips :
    (0xEF9E : Word).toNat = 0xE09E + 256 * (15 : Reg).val ∧ (0xEFA1 : Word).toNat = 0xE0A1 + 256 * (15 : Reg).val ∧
    ((withV [(0, 15)]).readV 0).toNat = (15 : Fin 16).val ∧ ((withV [(0, 16)]).readV 0).toNat > 15 := by decide

theorem witness_KeyWaitStoresTheLowestKey :
    (0xFF0A : Word).toNat = 0xF00A + 256 * (15 : Reg).val ∧ (∀ k : Fin 16, State.reset.key k = false) ∧
    ((State.reset.setKey 15 true).key 15 = true ∧
      ∀ j : Fin 16, j < 15 → (State.reset.setKey 15 true).key j = false) ∧
    (State.reset.setKey 0 true).key 0 = true ∧ ∀ j : Fin 16, j < 0 → (State.reset.setKey 0 true).key j = false := by
  decide

theorem witness_AKeyPressEndsTheWait :
    (about 0xFF0A State.reset).faulted = none ∧ (about 0xFF0A State.reset).pc.toNat + 1 < 4096 ∧
    (∀ k : Fin 16, (about 0xFF0A State.reset).key k = false) ∧
    decode (about 0xFF0A State.reset).wordAtPc = .instr (.ldVxK 15) := by decide

theorem witness_MemoryAccessesAreChecked :
    ((0 : Nat) = 0 ∨ 70000 + 0 ≤ 4096) ∧ ((16 : Nat) = 0 ∨ 4080 + 16 ≤ 4096) ∧ (0 < 16 ∧ 4096 < 4081 + 16) ∧
    (([] : List Byte) = [] ∨ 70000 + ([] : List Byte).length ≤ 4096) ∧
    (([1] : List Byte) = [] ∨ 4095 + ([1] : List Byte).length ≤ 4096) ∧
    0 < ([1] : List Byte).length ∧ 4096 < 4096 + ([1] : List Byte).length := by decide

theorem witness_LdBStoresTheDecimalDigits :
    (0xFF33 : Word).toNat = 0xF033 + 256 * (15 : Reg).val ∧ (State.reset.writeI 0xFFD).i.toNat + 2 < 4096 ∧
    4096 ≤ (State.reset.writeI 0xFFE).i.toNat + 2 := by decide

theorem witness_LdMemStoresTheRegisters :
    (0xFF55 : Word).toNat = 0xF055 + 256 * (15 : Reg).val ∧
    (State.reset.writeI 0xFF0).i.toNat + (15 : Reg).val < 4096 ∧
    4096 ≤ (State.reset.writeI 0xFF1).i.toNat + (15 : Reg).val := by decide

theorem witness_LdVxMemLoadsTheRegisters :
    (0xFF65 : Word).toNat = 0xF065 + 256 * (15 : Reg).val ∧
    (State.reset.writeI 0xFF0).i.toNat + (15 : Reg).val < 4096 ∧
    4096 ≤ (State.reset.writeI 0xFF1).i.toNat + (15 : Reg).val := by decide

theorem witness_NextFetchSeesTheStore :
    (State.reset.writeI 0x202).i.toNat + (1 : Reg).val < 4096 ∧ (1 : Reg) ≤ 1 ∧ (1 : Reg).val = (0 : Reg).val + 1 ∧
    (State.reset.writeI 0x202).pc.toNat + 2 < 65536 ∧
    (State.reset.writeI 0x202).pc.toNat + 2 = (State.reset.writeI 0x202).i.toNat + (0 : Reg).val := by decide

theorem witness_CanonicalMemoriesThatReadAlikeAreEqual :
    (withBytes 0xFFE [1, 2]).mem.wf = true ∧ ((withBytes 0xFFE [1, 0]).mem.write 0xFFF 2).wf = true ∧
    ∀ a : Nat, (withBytes 0xFFE [1, 2]).mem.read a = ((withBytes 0xFFE [1, 0]).mem.write 0xFFF 2).read a :=
  ⟨by decide, by decide, fun _ => rfl⟩

theorem witness_FaultsArePrecise : ∃ t, step State.reset = .next t ∧ t.faulted = some (.unknownOpcode 0) :=
  ⟨_, rfl, rfl⟩

/-- One step for each fault a step can raise. -/
theorem witness_StepFaultsHaveTheListedCauses :
    (∃ t, step (about 0x2300 { State.reset with sp := 16 }) = .next t ∧ t.faulted = some (.stackOverflow 0x200)) ∧
    (∃ t, step (about 0x00EE State.reset) = .next t ∧ t.faulted = some (.stackUnderflow 0x200)) ∧
    (∃ t, step (State.reset.writePc 0x10FE) = .next t ∧ t.faulted = some (.memoryOutOfRange 0x10FE)) ∧
    (∃ t, step (about 0xD001 (State.reset.writeI 0x1000)) = .next t ∧ t.faulted = some (.memoryOutOfRange 0x1000)) ∧
    (∃ t, step State.reset = .next t ∧ t.faulted = some (.unknownOpcode 0)) ∧
    ∃ t, step (about 0xE09E (withV [(0, 16)])) = .next t ∧ t.faulted = some (.keyIndexOutOfRange 16) :=
  ⟨⟨_, rfl, rfl⟩, ⟨_, rfl, rfl⟩, ⟨_, rfl, rfl⟩, ⟨_, rfl, rfl⟩, ⟨_, rfl, rfl⟩, ⟨_, rfl, rfl⟩⟩

theorem witness_AFaultIsSticky :
    faultedState.faulted = some (.stackUnderflow 0x200) ∧ HostOp.tickTimers ≠ .construct ∧
    ∃ p, hostOp conventionalFont .tickTimers faultedState = .next p :=
  ⟨rfl, by decide, _, rfl⟩

theorem witness_StepChangesOnlyWhatItsInstructionNames :
    (∃ t, step (about 0xF115 (withV [(1, 5)])) = .next t ∧ t.dt ≠ (about 0xF115 (withV [(1, 5)])).dt) ∧
    (about 0xF115 (withV [(1, 5)])).pc.toNat + 1 < 4096 ∧
    decode (about 0xF115 (withV [(1, 5)])).wordAtPc = .instr (.ldDtVx 1) ∧
    writesReg (.ldDtVx 1) 1 = false ∧
    ∃ t, step (about 0xF118 (withV [(1, 5)])) = .next t ∧ t.st ≠ (about 0xF118 (withV [(1, 5)])).st :=
  ⟨⟨_, rfl, by decide⟩, by decide, by decide, by decide, _, rfl, by decide⟩

/-- The two stores, the call and the drawing at the ends of their ranges, each with a byte on either side, a slot or a
pixel that the statement says is kept. -/
theorem witness_stores_call_and_drawing_keep_the_rest :
    ((∃ t, step (about 0xF033 (State.reset.writeI 0xFFD)) = .next t) ∧
      decode (about 0xF033 (State.reset.writeI 0xFFD)).wordAtPc = .instr (.ldB 0) ∧
      (0xFFC < (about 0xF033 (State.reset.writeI 0xFFD)).i.toNat ∧
        (about 0xF033 (State.reset.writeI 0xFFD)).i.toNat +
          (bcdDigits ((about 0xF033 (State.reset.writeI 0xFFD)).readV 0)).length ≤ 0x1000)) ∧
    ((∃ t, step (about 0xFF55 (State.reset.writeI 0xFF0)) = .next t) ∧
      decode (about 0xFF55 (State.reset.writeI 0xFF0)).wordAtPc = .instr (.ldMemVx 15) ∧
      (0xFEF < (about 0xFF55 (State.reset.writeI 0xFF0)).i.toNat ∧
        (about 0xFF55 (State.reset.writeI 0xFF0)).i.toNat +
          ((about 0xFF55 (State.reset.writeI 0xFF0)).regsUpTo 15).length ≤ 0x1000)) ∧
    ((∃ t, step (about 0x2300 { State.reset with sp := 15 }) = .next t) ∧
      decode (about 0x2300 { State.reset with sp := 15 }).wordAtPc = .instr (.call 0x300) ∧
      (14 : Fin 16).val ≠ (about 0x2300 { State.reset with sp := 15 }).sp.val) ∧
    (∃ t, step (about 0xD010 State.reset) = .next t) ∧
    decode (about 0xD010 State.reset).wordAtPc = .instr (.drw 0 1 0) ∧
    ¬SpriteCovers (about 0xD010 State.reset) 0 1 0 3 4 :=
  ⟨⟨⟨_, rfl⟩, by decide, by decide⟩, ⟨⟨_, rfl⟩, by decide, by decide⟩, ⟨⟨_, rfl⟩, by decide, by decide⟩, ⟨_, rfl⟩, by decide,
    fun ⟨row, _, h, _⟩ => absurd h (Nat.not_lt_zero row)⟩

theorem witness_OtherInstructionsAdvanceByTwo :
    setsPc (.ldVxK 3) = false ∧ State.reset.faulted = none ∧ ∃ t, exec (.ldVxK 3) State.reset = .next t ∧
      t.faulted = none :=
  ⟨rfl, rfl, _, rfl, rfl⟩

theorem witness_StaleStackSlotsAreNeverObserved :
    SameButStaleSlots (about 0x2300 State.reset)
      { about 0x2300 State.reset with stack := State.reset.stack.set 0 0x1234 } ∧
    ∃ t, step (about 0x2300 State.reset) = .next t :=
  ⟨⟨fun j h => absurd h (Nat.not_lt_zero j.val), rfl⟩, _, rfl⟩

theorem witness_OnlyRndReachesTheRandomSource :
    (∀ x kk, Instr.cls ≠ .rnd x kk) ∧ ∃ t, exec .cls State.reset = .next t :=
  ⟨fun _ _ => Instr.noConfusion, _, rfl⟩

theorem witness_TheEndOfARunStays : (about 0x1FFE (State.reset.writePc 0xFFE)).ended :=
  ⟨rfl, by decide, by decide, by decide⟩

theorem witness_StepKeepsMemoryCanonical :
    MemoryCanonical (about 0xF033 ((withV [(0, 255)]).writeI 0)) ∧
    ∃ t, step (about 0xF033 ((withV [(0, 255)]).writeI 0)) = .next t ∧ t.mem ≠ (about 0xF033 ((withV [(0, 255)]).writeI 0)).mem :=
  ⟨by show _ = true; decide, _, rfl, by decide⟩

theorem witness_StepKeepsPcBounded :
    PcBounded (about 0xBFFF (withV [(0, 0xFF)])) ∧
    ∃ t, step (about 0xBFFF (withV [(0, 0xFF)])) = .next t ∧ t.pc = 0x10FE :=
  ⟨⟨by decide, fun j h => absurd h (Nat.not_lt_zero j.val)⟩, _, rfl, by decide⟩

/-- A fresh machine, and the state a press, an image and a step lead to, are reachable. -/
theorem witness_ReachableStatesMeetTheInvariants :
    ∃ s, Reachable conventionalFont s ∧ s.readV 0 = 0x07 ∧ s.pc = 0x202 :=
  ⟨_, .operated .step (.operated (.load [0x60, 0x07]) (.constructed 0) rfl) rfl, by decide, by decide⟩

theorem witness_LoadCopiesTheImageOrFaults :
    (State.reset.faulted = none ∧ wfImage (List.replicate 3584 0) = true) ∧
    (State.reset.faulted = none ∧ wfImage (List.replicate 3585 0) = false) ∧
    faultedState.faulted = some (.stackUnderflow 0x200) :=
  ⟨⟨rfl, test_wfImage.1⟩, ⟨rfl, test_wfImage.2⟩, rfl⟩

theorem witness_KeyOperationsSetOneFlag : wfKeyId 16 = false := by decide

/-- Two parts that both run, a single operation that is refused, and a stop in the first and in the second part. -/
theorem witness_SchedulesRunInIssueOrder :
    (∃ t r, hostOp conventionalFont .step (about 0xF30A State.reset) = .next (t, r)) ∧
    hostOp conventionalFont (.pressKey 16) State.reset = .refused (.keyIdOutOfSet 16) ∧
    (∃ t u rs qs, runHost conventionalFont [.pressKey 9, .step] (about 0xF30A State.reset) = .next (t, rs) ∧
      runHost conventionalFont [.readDisplay] t = .next (u, qs)) ∧
    runHost conventionalFont [.step] faultedState = .refused (.faultedStatus (.stackUnderflow 0x200)) ∧
    ∃ t rs, runHost conventionalFont [.step] State.reset = .next (t, rs) ∧
      runHost conventionalFont [.load []] t = .refused (.faultedStatus (.unknownOpcode 0)) :=
  ⟨⟨_, _, rfl⟩, rfl, ⟨_, _, _, _, rfl, rfl⟩, rfl, _, _, rfl, rfl⟩

/-- A load, and a step that jumps to the highest `pc`. -/
theorem witness_EveryHostOperationKeepsTheInvariants :
    MemoryCanonical State.reset ∧ PcBounded State.reset ∧
    (∃ t r, hostOp conventionalFont (.load [0x60, 0x07]) State.reset = .next (t, r)) ∧
    MemoryCanonical (about 0xBFFF (withV [(0, 0xFF)])) ∧ PcBounded (about 0xBFFF (withV [(0, 0xFF)])) ∧
    ∃ t r, hostOp conventionalFont .step (about 0xBFFF (withV [(0, 0xFF)])) = .next (t, r) :=
  ⟨rfl, ⟨by decide, fun j h => absurd h (Nat.not_lt_zero j.val)⟩, ⟨_, _, rfl⟩, by show _ = true; decide,
    witness_StepKeepsPcBounded.1, _, _, rfl⟩

end Sys2Proof.Tests
end

section
/-! PROOFS. The state after `construct()` as a driver's operation (10_state.md R36): what a fresh machine's memory
holds, what each accessor of it answers, and O52. -/

namespace Sys2Proof.Machine

open Sys2Proof

/-! ### The bytes of a fresh machine -/

theorem fontByte_glyphZero (font : Config.Font) (r : Fin 5) : fontByte font r.val = glyphZero[r.val] :=
  dif_pos r.isLt

/-- Row `r` of glyph `d + 1` is row `d` of the `FONT`, since glyph 0 is no part of it (20_memory.md R41). -/
theorem fontByte_glyph (font : Config.Font) (d : Fin 15) (r : Fin 5) :
    fontByte font (5 * (d.val + 1) + r.val) = font[d.val][r.val] := by
  have hd : (5 * (d.val + 1) + r.val) / 5 - 1 = d.val := by omega
  have hr : (5 * (d.val + 1) + r.val) % 5 = r.val := by omega
  rw [fontByte, dif_neg (by omega), dif_pos (by omega)]
  simp only [hd, hr]

theorem fontByte_above_glyphs (font : Config.Font) {a : Nat} (h : 80 ≤ a) : fontByte font a = 0 := by
  rw [fontByte, dif_neg (by omega), dif_neg (by omega)]
  rfl

/-! ### The fresh machine through its accessors -/

section
variable (font : Config.Font) (s : State)

@[simp] theorem hostOp_construct : hostOp font .construct s = .next (s.reconstruct font, .nothing) := rfl

@[simp] theorem State.reconstruct_readV (r : Reg) : (s.reconstruct font).readV r = 0 :=
  Vector.getElem_replicate r.isLt

@[simp] theorem State.reconstruct_stack (j : Fin 16) : (s.reconstruct font).stack[j.val] = 0 :=
  Vector.getElem_replicate j.isLt

@[simp] theorem State.reconstruct_key (k : Fin 16) : (s.reconstruct font).key k = false :=
  Vector.getElem_replicate k.isLt

@[simp] theorem State.reconstruct_pixel (x : Fin 64) (y : Fin 32) :
    (s.reconstruct font).display.pixel x y = false :=
  Display.pixel_cleared x y

@[simp] theorem State.reconstruct_mem_read (a : Nat) : (s.reconstruct font).mem.read a = fontByte font a :=
  Memory.read_ofFont font a

end

/-- Settles O52: each row of the reset table is what the accessor of that element answers on a fresh machine, and
memory is read through `fontByte`. -/
theorem constructGivesTheResetTable : Obligations.ConstructGivesTheResetTable := by
  intro font s
  refine ⟨s.reconstruct font, hostOp_construct font s, s.reconstruct_readV font, rfl, rfl, rfl,
    s.reconstruct_stack font, rfl, rfl, s.reconstruct_key font, s.reconstruct_pixel font, rfl, ?_⟩
  simp only [State.reconstruct_mem_read]
  exact ⟨fontByte_glyphZero font 0, fontByte_glyphZero font 1, fontByte_glyphZero font 2, fontByte_glyphZero font 3,
    fontByte_glyphZero font 4, fontByte_glyph font, fun _ => fontByte_above_glyphs font⟩

end Sys2Proof.Machine
end

section
/-! The memory access operations: what the bytes of a legal access are, by their index, and O33. -/

namespace Sys2Proof.Machine

open Sys2Proof

theorem Memory.getElem?_readBytes (m : Memory) (a n k : Nat) (h : k < n) :
    (m.readBytes a n)[k]? = some (m.read (a + k)) := by
  have hk : k < (m.readBytes a n).length := by simpa using h
  rw [List.getElem?_eq_getElem hk, Memory.getElem_readBytes]

theorem Memory.getElem?_eq_read_writeBytes (m : Memory) (a k : Nat) (bs : List Byte) (h : k < bs.length) :
    bs[k]? = some ((m.writeBytes a bs).read (a + k)) := by
  rw [List.getElem?_eq_getElem h, Memory.read_writeBytes_inside]

/-- Settles O33: the range check alone decides the answer, and a legal access is `readBytes` or `writeBytes`. -/
theorem memoryAccessesAreChecked : Obligations.MemoryAccessesAreChecked := by
  refine ⟨fun m a n h => ?read, fun m _ _ => memRead_of_gt m, fun m a bs h => ?write, fun m _ _ => memWrite_of_gt m⟩
  case read => exact ⟨m.readBytes a n, memRead_of_le m h, m.length_readBytes a n, m.getElem?_readBytes a n⟩
  case write =>
    exact ⟨m.writeBytes a bs, memWrite_of_le m h, fun k => m.getElem?_eq_read_writeBytes a k bs,
      fun a' => m.read_writeBytes_outside a a' bs⟩

end Sys2Proof.Machine
end

section
/-! The instruction cycle: which of its three ends a step takes (40_cycle.md R69 to R72), and O7. -/

namespace Sys2Proof.Machine

open Sys2Proof

/-- A fetch that reaches the end of memory raises its fault (R70). -/
theorem step_of_pc_ge {s : State} (h : s.faulted = none) (hp : 4096 ≤ s.pc.toNat + 1) :
    step s = .next (raiseFault (.memoryOutOfRange (max s.pc.toNat 4096)) s) :=
  step_of_fetch_error h (fetch_of_gt (by omega))

/-- A step whose fetch and decode both succeed is `exec` at the same state (R68, R72). -/
theorem step_eq_exec {s : State} {i : Instr} (h : s.faulted = none) (hp : s.pc.toNat + 1 < 4096)
    (hd : decode s.wordAtPc = .instr i) : step s = exec i s :=
  step_of_instr h (fetch_eq_wordAtPc hp) hd

/-- Settles O7: each clause is the step's lemma for one outcome of the faulted status, the fetch and the decode. -/
theorem stepFetchesDecodesOrStops : Obligations.StepFetchesDecodesOrStops :=
  ⟨fun _ _ => step_of_faulted, fun _ => step_of_pc_ge,
    fun _ h hp => step_of_unknown h (fetch_eq_wordAtPc hp), fun _ _ => step_eq_exec⟩

end Sys2Proof.Machine
end

section
/-! How an instruction that is no control-flow transfer ends (40_cycle.md R73): with `pc + 2`, with a key wait that
waits, or with a fault; and O44. -/

namespace Sys2Proof.Machine

open Sys2Proof

theorem exec_ldVxK_of_none {s : State} (x : Reg) (h : s.lowestPressed = none) : exec (.ldVxK x) s = .next s := by
  simp [exec, execLdVxK, h]

theorem exec_ldVxK_of_some {s : State} (x : Reg) {k : Fin 16} (h : s.lowestPressed = some k) :
    exec (.ldVxK x) s = .next (s.writeV x (keyByte k)).advance := by
  simp [exec, execLdVxK, h]

@[simp] theorem State.writeShift_pc (s : State) (o : ShiftFlagOrder) (x : Reg) (shift : Byte → Byte) (flag : Byte) :
    (s.writeShift o x shift flag).pc = s.pc := by
  unfold State.writeShift
  split <;> rfl

/-- A checked access that goes on with `pc + 2` when it is legal commits that, and else only its fault. -/
theorem commit_ofExcept_advances {α : Type} {s : State} (e : Except Fault α) {k : α → State}
    (hk : ∀ a, (k a).pc = s.pc + 2) :
    ∃ t, commit s (.ofExcept e fun a => .done (k a)) = .next t ∧
      (t.pc = s.pc + 2 ∨ ∃ f, t = raiseFault f s) := by
  cases e with
  | ok a => exact ⟨k a, rfl, .inl (hk a)⟩
  | error f => exact ⟨raiseFault f s, rfl, .inr ⟨f, rfl⟩⟩

/-- An instruction that is neither a control-flow transfer nor the key wait ends with `pc + 2`, or it raises. -/
theorem exec_advances_or_raises {i : Instr} (h : setsPc i = false) (hk : ∀ x, i ≠ .ldVxK x) (s : State) :
    ∃ t, exec i s = .next t ∧ (t.pc = s.pc + 2 ∨ ∃ f, t = raiseFault f s) := by
  cases i with
  | ret | jp | call | seImm | sneImm | seReg | sneReg | jpV0 | skp | sknp => cases h
  | ldVxK x => exact absurd rfl (hk x)
  | cls | ldImm | addImm | ldReg | orReg | andReg | xorReg | addReg | sub | subn | ldI | rnd | ldVxDt | ldDtVx
  | ldStVx | addI | ldF => exact ⟨_, rfl, .inl rfl⟩
  | shr | shl => exact ⟨_, rfl, .inl (by simp)⟩
  | drw | ldB | ldMemVx | ldVxMem => exact commit_ofExcept_advances _ fun _ => rfl

/-- Settles O44: the key wait by whether a key is pressed; any other instruction advances or raises, and a fault-free
next state rules the raise out. -/
theorem otherInstructionsAdvanceByTwo : Obligations.OtherInstructionsAdvanceByTwo := by
  intro i s t hi _ ht hf
  by_cases hk : ∃ x, i = .ldVxK x
  · obtain ⟨x, rfl⟩ := hk
    cases hkey : s.lowestPressed with
    | none =>
      rw [exec_ldVxK_of_none x hkey] at ht
      cases ht
      exact .inr ⟨rfl, ⟨x, rfl⟩, State.lowestPressed_eq_none.mp hkey⟩
    | some k =>
      rw [exec_ldVxK_of_some x hkey] at ht
      cases ht
      exact .inl rfl
  · obtain ⟨u, hu, hends⟩ := exec_advances_or_raises hi (not_exists.mp hk) s
    rw [hu] at ht
    cases ht
    rcases hends with hpc | ⟨f, rfl⟩
    · exact .inl hpc
    · cases hf

end Sys2Proof.Machine
end

section
/-! The key wait as the driver sees it (40_cycle.md R76; 60_exceptions.md R136): what a step answers where `LD Vx, K`
is at `pc`, with and without a pressed key, and O32. -/

namespace Sys2Proof.Machine

open Sys2Proof

theorem hostStep_of_next {s t : State} (h : step s = .next t) : hostStep s = .next (t, stepReply s t) := by
  simp [hostStep, h]

theorem stepReply_of_faultFree {s t : State} (h : t.faulted = none) :
    stepReply s t = if s.waits then .waiting else .advanced := by
  simp [stepReply, h]

theorem hostOp_pressKey (font : Config.Font) (k : Fin 16) (s : State) :
    hostOp font (.pressKey k.val) s = .next (s.setKey k true, .nothing) :=
  dif_pos k.isLt

/-- Where no key is pressed, a key just pressed is the lowest pressed one. -/
theorem State.lowestPressed_setKey_of_none {s : State} (h : ∀ k : Fin 16, s.key k = false) (k : Fin 16) :
    (s.setKey k true).lowestPressed = some k :=
  State.lowestPressed_eq_some.mpr ⟨by simp, fun j hj => by simp [hj.ne, h j]⟩

section
variable {s : State} {x : Reg} (hn : s.faulted = none) (hp : s.pc.toNat + 1 < 4096)
  (hd : decode s.wordAtPc = .instr (.ldVxK x))
include hn hp hd

theorem State.waits_of_keyWait : s.waits = s.lowestPressed.isNone := by
  simp [State.waits, hn, fetch_eq_wordAtPc hp, hd, isKeyWait]

theorem step_keyWait_of_none (h : s.lowestPressed = none) : step s = .next s :=
  (step_eq_exec hn hp hd).trans (exec_ldVxK_of_none x h)

theorem hostStep_keyWait_of_none (h : s.lowestPressed = none) : hostStep s = .next (s, .waiting) := by
  rw [hostStep_of_next (step_keyWait_of_none hn hp hd h), stepReply_of_faultFree hn,
    State.waits_of_keyWait hn hp hd, h]
  rfl

theorem hostStep_keyWait_of_some {k : Fin 16} (h : s.lowestPressed = some k) :
    hostStep s = .next ((s.writeV x (keyByte k)).advance, .advanced) := by
  rw [hostStep_of_next ((step_eq_exec hn hp hd).trans (exec_ldVxK_of_some x h)), stepReply_of_faultFree (by simpa),
    State.waits_of_keyWait hn hp hd, h]
  rfl

end

/-- Settles O32: the pressed key changes neither `pc` nor the word there, so the next step runs the same `LD Vx, K`
with that key as the lowest pressed one. -/
theorem aKeyPressEndsTheWait : Obligations.AKeyPressEndsTheWait := by
  intro s hn hp hkeys x hd
  have hnone : s.lowestPressed = none := State.lowestPressed_eq_none.mpr hkeys
  refine ⟨step_keyWait_of_none hn hp hd hnone, hostStep_keyWait_of_none hn hp hd hnone, fun font k => ?_⟩
  have hsome : (s.setKey k true).lowestPressed = some k := State.lowestPressed_setKey_of_none hkeys k
  have hstep : hostOp font .step (s.setKey k true) =
      .next (((s.setKey k true).writeV x (keyByte k)).advance, .advanced) :=
    hostStep_keyWait_of_some (s := s.setKey k true) hn hp hd hsome
  exact ⟨_, _, hostOp_pressKey font k s, hstep, by simp, rfl⟩

end Sys2Proof.Machine
end

section
/-! PROOFS. The display family (41_display.md R78, R79): frames of the updates it is built from, what a drawn sprite
toggles, what `DRW` answers on each side of its range check, and O10 and O11. -/

namespace Sys2Proof.Machine

open Sys2Proof

/-! ### Frames of the updates, and of one after another -/

theorem Part.same_trans {p : Part} {s t u : State} (h : p.same s t) (h' : p.same t u) : p.same s u := by
  cases p with
  | v | stack | keys | mem => exact fun a => (h' a).trans (h a)
  | display => exact fun x y => (h' x y).trans (h x y)
  | i | pc | sp | dt | st | faulted | draws => exact Eq.trans h' h

theorem OnlyChanges.trans {cs ds : List Part} {s t u : State} (h : OnlyChanges cs s t) (h' : OnlyChanges ds t u) :
    OnlyChanges (cs ++ ds) s u := fun p hp =>
  Part.same_trans (h p fun hc => hp (List.mem_append_left ds hc)) (h' p fun hd => hp (List.mem_append_right cs hd))

theorem OnlyChanges.writeDisplay (s : State) (d : Display) : OnlyChanges [.display] s (s.writeDisplay d) := by
  intro p hp
  cases p with
  | display => simp at hp
  | _ => simp [Part.same]

theorem OnlyChanges.writeV (s : State) (x : Reg) (b : Byte) : OnlyChanges [.v] s (s.writeV x b) := by
  intro p hp
  cases p with
  | v => simp at hp
  | _ => simp [Part.same]

theorem OnlyChanges.advance (s : State) : OnlyChanges [.pc] s s.advance := by
  intro p hp
  cases p with
  | pc => simp at hp
  | _ => simp [Part.same]

theorem RegsUnchangedBut.writeV (s : State) (x : Reg) (b : Byte) : RegsUnchangedBut [x] s (s.writeV x b) := by
  intro r hr
  rw [State.readV_writeV, if_neg (by simpa using hr)]

/-! ### `CLS` -/

theorem exec_cls (s : State) : exec .cls s = .next (s.writeDisplay Display.cleared).advance := rfl

theorem decode_clsWord {w : Word} (h : w.toNat = 0x00E0) : decode w = .instr .cls := by
  obtain rfl : w = 0x00E0#16 := BitVec.eq_of_toNat_eq h
  rfl

/-- Settles O10: `CLS` is a display write and an advance, and its frame is the two frames one after the other. -/
theorem clsUnlightsEveryPixel : Obligations.ClsUnlightsEveryPixel :=
  ⟨fun _ => decode_clsWord, fun s => ⟨_, exec_cls s, Display.pixel_cleared, rfl,
    (OnlyChanges.writeDisplay s _).trans (.advance _)⟩⟩

/-! ### The sprite of `DRW` -/

/-- The display and the collision bit after the sprite of `DRW Vx, Vy, n` is drawn (R79). -/
def State.drawSprite (s : State) (x y : Reg) (n : Nat) : Drawing :=
  drawRows (s.readV x).toNat (s.readV y).toNat 0 (s.mem.readBytes s.i.toNat n) (s.display, false)

/-- The covered pixels are those of the bytes `DRW` reads. -/
theorem rowsCover_readBytes_iff (s : State) (x y : Reg) (n : Nat) (px : Fin 64) (py : Fin 32) :
    RowsCover (s.readV x).toNat (s.readV y).toNat 0 (s.mem.readBytes s.i.toNat n) px py ↔
      SpriteCovers s x y n px py := by
  simp only [RowsCover, RowCovers, SpriteCovers, Memory.length_readBytes, Memory.getElem_readBytes, wrapX, wrapY,
    Fin.ext_iff, Nat.zero_add]
  constructor
  · rintro ⟨row, hrow, hy, col, -, hcol, hbit, hx⟩
    exact ⟨row, col, hrow, hcol, hbit, hx, hy.symm⟩
  · rintro ⟨row, col, hrow, hcol, hbit, hx, hy⟩
    exact ⟨row, hrow, hy.symm, col, Nat.zero_le col, hcol, hbit, hx⟩

/-- A sprite of at most 32 rows toggles the covered pixels, each once. -/
theorem State.drawSprite_toggles (s : State) (x y : Reg) {n : Nat} (hn : n ≤ 32) :
    Toggles (SpriteCovers s x y n) (s.display, false) (s.drawSprite x y n) :=
  (drawRows_toggles _ _ _ (by simpa using hn) 0 _).congr (rowsCover_readBytes_iff s x y n)

/-- The collision bit tells whether a covered pixel was lit. -/
theorem State.drawSprite_collides_iff (s : State) (x y : Reg) {n : Nat} (hn : n ≤ 32) :
    (s.drawSprite x y n).2 = true ↔ ∃ px py, SpriteCovers s x y n px py ∧ s.display.pixel px py = true := by
  simpa using (s.drawSprite_toggles x y hn).2

/-! ### What `DRW` answers -/

/-- The state `DRW Vx, Vy, n` ends in when its access is legal. -/
def State.afterDrw (s : State) (x y : Reg) (n : Nat) : State :=
  ((s.writeDisplay (s.drawSprite x y n).1).writeV VF (flagByte (s.drawSprite x y n).2)).advance

theorem exec_drw_of_le {s : State} (x y : Reg) {n : Fin 16} (h : n.val = 0 ∨ s.i.toNat + n.val ≤ 4096) :
    exec (.drw x y n) s = .next (s.afterDrw x y n.val) := by
  rw [exec, execDrw, memRead_of_le s.mem h]
  rfl

theorem exec_drw_of_gt {s : State} (x y : Reg) {n : Fin 16} (h0 : 0 < n.val) (h : 4096 < s.i.toNat + n.val) :
    exec (.drw x y n) s = .next (raiseFault (.memoryOutOfRange (max s.i.toNat 4096)) s) := by
  rw [exec, execDrw, memRead_of_gt s.mem h0 h]
  rfl

@[simp] theorem State.afterDrw_display (s : State) (x y : Reg) (n : Nat) :
    (s.afterDrw x y n).display = (s.drawSprite x y n).1 := rfl

@[simp] theorem State.afterDrw_pc (s : State) (x y : Reg) (n : Nat) : (s.afterDrw x y n).pc = s.pc + 2 := rfl

@[simp] theorem State.afterDrw_readV_VF (s : State) (x y : Reg) (n : Nat) :
    (s.afterDrw x y n).readV VF = flagByte (s.drawSprite x y n).2 := by
  simp [State.afterDrw]

theorem RegsUnchangedBut.afterDrw (s : State) (x y : Reg) (n : Nat) : RegsUnchangedBut [VF] s (s.afterDrw x y n) :=
  RegsUnchangedBut.writeV (s.writeDisplay _) VF _

theorem OnlyChanges.afterDrw (s : State) (x y : Reg) (n : Nat) :
    OnlyChanges [.display, .v, .pc] s (s.afterDrw x y n) :=
  ((OnlyChanges.writeDisplay s _).trans (.writeV _ VF _)).trans (.advance _)

theorem decode_drwWord {w : Word} {x y : Reg} {n : Fin 16}
    (h : w.toNat = 0xD000 + 256 * x.val + 16 * y.val + n.val) : decode w = .instr (.drw x y n) := by
  obtain rfl : w = wordXYN 0xD#4 x y (BitVec.ofFin n) :=
    BitVec.eq_of_toNat_eq (h.trans (wordXYN_toNat 0xD#4 x y (BitVec.ofFin n)).symm)
  simp [decode_of_opD]

/-- Settles O11: on a legal access the drawing toggles exactly the covered pixels and its collision bit goes to `VF`;
on any other the range check raises before anything is drawn. -/
theorem drwXorsTheSpriteAndReportsCollision : Obligations.DrwXorsTheSpriteAndReportsCollision := by
  refine ⟨fun _ _ _ _ => decode_drwWord, fun s x y n h => ?completes, fun _ x y _ => exec_drw_of_gt x y⟩
  case completes =>
    have hn : n.val ≤ 32 := by omega
    have hcol := s.drawSprite_collides_iff x y hn
    refine ⟨_, exec_drw_of_le x y h, (s.drawSprite_toggles x y hn).1, fun hlit => ?_, fun hunlit => ?_,
      s.afterDrw_pc x y n.val, .afterDrw s x y n.val, .afterDrw s x y n.val⟩
    · rw [State.afterDrw_readV_VF, hcol.mpr hlit]
      rfl
    · rw [State.afterDrw_readV_VF, Bool.eq_false_of_not_eq_true (mt hcol.mp hunlit)]
      rfl

end Sys2Proof.Machine
end

section
/-! PROOFS. The decoding of the control-flow words (42_control_flow.md R81 to R90): a word whose number is a sum of
digits is the word of those fields, and a `0nnn` word that is no instruction raises; and O8. -/

namespace Sys2Proof.Machine

open Sys2Proof

theorem eq_wordA_of_toNat {w : Word} {op : Nibble} {nnn : Addr12} (h : w.toNat = 4096 * op.toNat + nnn.toNat) :
    w = wordA op nnn :=
  BitVec.eq_of_toNat_eq (h.trans (wordA_toNat op nnn).symm)

theorem eq_wordXK_of_toNat {w : Word} {op : Nibble} {x : Reg} {kk : Byte}
    (h : w.toNat = 4096 * op.toNat + 256 * x.val + kk.toNat) : w = wordXK op x kk :=
  BitVec.eq_of_toNat_eq (h.trans (wordXK_toNat op x kk).symm)

theorem eq_wordXYN_of_toNat {w : Word} {op : Nibble} {x y : Reg} {n : Nibble}
    (h : w.toNat = 4096 * op.toNat + 256 * x.val + 16 * y.val + n.toNat) : w = wordXYN op x y n :=
  BitVec.eq_of_toNat_eq (h.trans (wordXYN_toNat op x y n).symm)

theorem fieldOp_eq_of_toNat {w : Word} {op : Nibble} (h : w.toNat / 0x1000 = op.toNat) : fieldOp w = op :=
  BitVec.eq_of_toNat_eq ((fieldOp_toNat w).trans h)

theorem fieldN_ne_zero {w : Word} (h : w.toNat % 16 ≠ 0) : fieldN w ≠ 0#4 := fun hn =>
  h ((fieldN_toNat w).symm.trans (congrArg BitVec.toNat hn))

theorem decode_retWord {w : Word} (h : w.toNat = 0x00EE) : decode w = .instr .ret := by
  obtain rfl : w = 0x00EE#16 := BitVec.eq_of_toNat_eq h
  rfl

theorem decode_jpWord {w : Word} {nnn : Addr12} (h : w.toNat = 0x1000 + nnn.toNat) :
    decode w = .instr (.jp nnn) := by
  obtain rfl := eq_wordA_of_toNat (op := 0x1#4) h
  simp [decode_of_op1]

theorem decode_callWord {w : Word} {nnn : Addr12} (h : w.toNat = 0x2000 + nnn.toNat) :
    decode w = .instr (.call nnn) := by
  obtain rfl := eq_wordA_of_toNat (op := 0x2#4) h
  simp [decode_of_op2]

theorem decode_jpV0Word {w : Word} {nnn : Addr12} (h : w.toNat = 0xB000 + nnn.toNat) :
    decode w = .instr (.jpV0 nnn) := by
  obtain rfl := eq_wordA_of_toNat (op := 0xB#4) h
  simp [decode_of_opB]

theorem decode_seImmWord {w : Word} {x : Reg} {kk : Byte} (h : w.toNat = 0x3000 + 256 * x.val + kk.toNat) :
    decode w = .instr (.seImm x kk) := by
  obtain rfl := eq_wordXK_of_toNat (op := 0x3#4) h
  simp [decode_of_op3]

theorem decode_sneImmWord {w : Word} {x : Reg} {kk : Byte} (h : w.toNat = 0x4000 + 256 * x.val + kk.toNat) :
    decode w = .instr (.sneImm x kk) := by
  obtain rfl := eq_wordXK_of_toNat (op := 0x4#4) h
  simp [decode_of_op4]

theorem decode_seRegWord {w : Word} {x y : Reg} (h : w.toNat = 0x5000 + 256 * x.val + 16 * y.val) :
    decode w = .instr (.seReg x y) := by
  obtain rfl := eq_wordXYN_of_toNat (op := 0x5#4) (n := 0#4) h
  simp [decode_of_op5]

theorem decode_sneRegWord {w : Word} {x y : Reg} (h : w.toNat = 0x9000 + 256 * x.val + 16 * y.val) :
    decode w = .instr (.sneReg x y) := by
  obtain rfl := eq_wordXYN_of_toNat (op := 0x9#4) (n := 0#4) h
  simp [decode_of_op9]

/-- The register skips ask for a low nibble of 0 (R87, R88). -/
theorem decode_registerSkip_of_lowNibble {w : Word} (h : w.toNat / 0x1000 = 0x5 ∨ w.toNat / 0x1000 = 0x9)
    (hn : w.toNat % 16 ≠ 0) : decode w = .unknown := by
  rcases h with h5 | h9
  · rw [decode_of_op5 (fieldOp_eq_of_toNat h5), if_neg (fieldN_ne_zero hn)]
  · rw [decode_of_op9 (fieldOp_eq_of_toNat h9), if_neg (fieldN_ne_zero hn)]

/-- A `0nnn` word that is neither `CLS` nor `RET` is no instruction (R90). -/
theorem decode_sysWord {w : Word} (h : w.toNat < 0x1000) (hcls : w.toNat ≠ 0x00E0) (hret : w.toNat ≠ 0x00EE) :
    decode w = .unknown := by
  rw [decode_of_op0 (fieldOp_eq_of_toNat (Nat.div_eq_of_lt h)), decodeGroup0,
    if_neg (fun e => hcls (congrArg BitVec.toNat e)), if_neg (fun e => hret (congrArg BitVec.toNat e))]

/-- Settles O8: the word lies in group 0 and is neither of its two exact words, so the step's decode raises. -/
theorem sysWordsFault : Obligations.SysWordsFault := by
  intro s hn hp hlt hcls hret
  have hd : decode s.wordAtPc = .unknown := decode_sysWord hlt hcls hret
  exact ⟨hd, step_of_unknown hn (fetch_eq_wordAtPc hp) hd⟩

end Sys2Proof.Machine
end

section
/-! PROOFS. The jumps and the skips (42_control_flow.md R82, R85 to R89): each is one write of `pc`, whose frame is
proved once; and O14, O17, O18 and O19. -/

namespace Sys2Proof.Machine

open Sys2Proof

theorem OnlyChanges.writePc (s : State) (w : Word) : OnlyChanges [.pc] s (s.writePc w) := by
  intro p hp
  cases p with
  | pc => simp at hp
  | _ => simp [Part.same]

theorem OnlyChanges.skipIf (s : State) (c : Bool) : OnlyChanges [.pc] s (s.skipIf c) := .writePc s _

/-! ### The jumps -/

theorem exec_jp (nnn : Addr12) (s : State) : exec (.jp nnn) s = .next (s.writePc (zextAddr nnn)) := rfl

theorem exec_jpV0 (nnn : Addr12) (s : State) :
    exec (.jpV0 nnn) s = .next (s.writePc (zextByte (s.readV 0) + zextAddr nnn)) := rfl

/-- A byte and a 12-bit address add without wrapping at 16 bits (R89). -/
theorem zextByte_add_zextAddr_toNat (b : Byte) (nnn : Addr12) :
    (zextByte b + zextAddr nnn).toNat = b.toNat + nnn.toNat := by
  have hb := b.isLt
  have hn := nnn.isLt
  rw [BitVec.toNat_add, zextByte_toNat, zextAddr_toNat]
  omega

/-- Settles O14: `JP` is one write of `pc`. -/
theorem jpSetsThePc : Obligations.JpSetsThePc :=
  ⟨fun _ _ => decode_jpWord, fun s nnn => ⟨_, exec_jp nnn s, zextAddr_toNat nnn, .writePc s _⟩⟩

/-- Settles O19: `JP V0` is one write of `pc`, and its sum is exact because both summands are narrow. -/
theorem jpV0AddsExactly : Obligations.JpV0AddsExactly := by
  refine ⟨fun _ _ => decode_jpV0Word, fun s nnn => ?_⟩
  have hsum := zextByte_add_zextAddr_toNat (s.readV 0) nnn
  have hv := (s.readV 0).isLt
  have hn := nnn.isLt
  refine ⟨_, exec_jpV0 nnn s, hsum, ?_, .writePc s _⟩
  rw [State.writePc_pc, hsum]
  omega

/-! ### The skips -/

theorem State.skipIf_eq_pc (s : State) (a b : Byte) :
    (s.skipIf (decide (a = b))).pc = if a = b then s.pc + 4 else s.pc + 2 := by
  simp

theorem State.skipIf_ne_pc (s : State) (a b : Byte) :
    (s.skipIf (decide (a ≠ b))).pc = if a = b then s.pc + 2 else s.pc + 4 := by
  simp

theorem exec_seImm (x : Reg) (kk : Byte) (s : State) :
    exec (.seImm x kk) s = .next (s.skipIf (decide (s.readV x = kk))) := rfl

theorem exec_sneImm (x : Reg) (kk : Byte) (s : State) :
    exec (.sneImm x kk) s = .next (s.skipIf (decide (s.readV x ≠ kk))) := rfl

theorem exec_seReg (x y : Reg) (s : State) :
    exec (.seReg x y) s = .next (s.skipIf (decide (s.readV x = s.readV y))) := rfl

theorem exec_sneReg (x y : Reg) (s : State) :
    exec (.sneReg x y) s = .next (s.skipIf (decide (s.readV x ≠ s.readV y))) := rfl

/-- Settles O17: both instructions are a conditional skip, on the equality with `kk` and on its negation. -/
theorem immediateSkips : Obligations.ImmediateSkips :=
  ⟨fun _ _ _ => decode_seImmWord, fun _ _ _ => decode_sneImmWord, fun s x kk =>
    ⟨⟨_, exec_seImm x kk s, s.skipIf_eq_pc _ _, .skipIf s _⟩,
      ⟨_, exec_sneImm x kk s, s.skipIf_ne_pc _ _, .skipIf s _⟩⟩⟩

/-- Settles O18: both instructions are a conditional skip, on the equality of the registers and on its negation, and
decoding asks for a low nibble of 0. -/
theorem registerSkips : Obligations.RegisterSkips :=
  ⟨fun _ _ _ => decode_seRegWord, fun _ _ _ => decode_sneRegWord, fun _ => decode_registerSkip_of_lowNibble,
    fun s x y =>
      ⟨⟨_, exec_seReg x y s, s.skipIf_eq_pc _ _, .skipIf s _⟩,
        ⟨_, exec_sneReg x y s, s.skipIf_ne_pc _ _, .skipIf s _⟩⟩⟩

end Sys2Proof.Machine
end

section
/-! PROOFS. The call stack instructions (42_control_flow.md R81, R83): the states `RET` and `CALL` complete in, their
frames, what each answers on both sides of its stack check, and O13 and O15. -/

namespace Sys2Proof.Machine

open Sys2Proof

theorem OnlyChanges.writeSp (s : State) (n : Fin 17) : OnlyChanges [.sp] s { s with sp := n } := by
  intro p hp
  cases p with
  | sp => simp at hp
  | _ => simp [Part.same, State.readV, State.key]

theorem OnlyChanges.writeStack (s : State) (st : Vector Word 16) : OnlyChanges [.stack] s { s with stack := st } := by
  intro p hp
  cases p with
  | stack => simp at hp
  | _ => simp [Part.same, State.readV, State.key]

/-! ### `RET` -/

/-- The state `RET` completes in when `n + 1` slots are in use (R81). -/
def State.afterRet (s : State) (n : Fin 16) : State := { s.writePc s.stack[n.val] with sp := n.castSucc }

/-- A pop with `n + 1` slots in use gives slot `n` and leaves `n` in use. -/
theorem State.pop_of_succ {s : State} {n : Fin 16} (h : s.sp.val = n.val + 1) :
    s.pop = .ok (s.stack[n.val], { s with sp := n.castSucc }) := by
  rw [State.pop_of_pos s (by omega)]
  simp only [h, Nat.add_sub_cancel]
  rfl

theorem exec_ret_of_succ {s : State} {n : Fin 16} (h : s.sp.val = n.val + 1) :
    exec .ret s = .next (s.afterRet n) := by
  rw [exec, execRet, State.pop_of_succ h]
  rfl

theorem exec_ret_of_empty {s : State} (h : s.sp.val = 0) :
    exec .ret s = .next (raiseFault (.stackUnderflow s.pc) s) := by
  rw [exec, execRet, State.pop_of_empty s h]
  rfl

theorem OnlyChanges.afterRet (s : State) (n : Fin 16) : OnlyChanges [.pc, .sp] s (s.afterRet n) :=
  (OnlyChanges.writePc s _).trans (.writeSp _ _)

/-- Settles O13: the stack check of the pop decides which of its two answers `RET` gives. -/
theorem retPopsThePc : Obligations.RetPopsThePc :=
  ⟨fun _ => decode_retWord, fun s n h => ⟨_, exec_ret_of_succ h, rfl, rfl, .afterRet s n⟩,
    fun _ => exec_ret_of_empty⟩

/-! ### `CALL` -/

/-- The state `CALL nnn` completes in when slot `n` is the first free one (R83). -/
def State.afterCall (s : State) (nnn : Addr12) (n : Fin 16) : State :=
  { s.writePc (zextAddr nnn) with sp := n.succ, stack := s.stack.set n.val s.pc }

theorem exec_call_of_lt {s : State} (nnn : Addr12) (h : s.sp.val < 16) :
    exec (.call nnn) s = .next (s.afterCall nnn ⟨s.sp.val, h⟩) := by
  rw [exec, execCall, State.push_of_lt s s.pc h]
  rfl

theorem exec_call_of_full {s : State} (nnn : Addr12) (h : s.sp.val = 16) :
    exec (.call nnn) s = .next (raiseFault (.stackOverflow s.pc) s) := by
  rw [exec, execCall, State.push_of_full s s.pc h]
  rfl

/-- The call's own address is in slot `n`, and every other slot is as before. -/
theorem State.afterCall_stack (s : State) (nnn : Addr12) (n j : Fin 16) :
    (s.afterCall nnn n).stack[j.val] = if j.val = n.val then s.pc else s.stack[j.val] := by
  simp only [State.afterCall, Vector.getElem_set, eq_comm]

theorem OnlyChanges.afterCall (s : State) (nnn : Addr12) (n : Fin 16) :
    OnlyChanges [.pc, .sp, .stack] s (s.afterCall nnn n) :=
  ((OnlyChanges.writePc s (zextAddr nnn)).trans (.writeSp _ n.succ)).trans
    (.writeStack { s.writePc (zextAddr nnn) with sp := n.succ } _)

/-- Settles O15: the stack check of the push decides which of its two answers `CALL` gives. -/
theorem callPushesItsOwnAddress : Obligations.CallPushesItsOwnAddress :=
  ⟨fun _ _ => decode_callWord, fun s nnn h => ⟨_, exec_call_of_lt nnn h, zextAddr_toNat nnn, rfl,
    s.afterCall_stack nnn ⟨s.sp.val, h⟩, .afterCall s nnn ⟨s.sp.val, h⟩⟩, fun _ => exec_call_of_full⟩

end Sys2Proof.Machine
end

section
/-! PROOFS. The register loads and the arithmetic-logic group without a flag (43_register_alu.md R92 to R97): the
decoding of their words, the frame of a register write followed by the advance; and O20, O21 and O22. -/

namespace Sys2Proof.Machine

open Sys2Proof

theorem decode_ldImmWord {w : Word} {x : Reg} {kk : Byte} (h : w.toNat = 0x6000 + 256 * x.val + kk.toNat) :
    decode w = .instr (.ldImm x kk) := by
  obtain rfl := eq_wordXK_of_toNat (op := 0x6#4) h
  simp [decode_of_op6]

theorem decode_addImmWord {w : Word} {x : Reg} {kk : Byte} (h : w.toNat = 0x7000 + 256 * x.val + kk.toNat) :
    decode w = .instr (.addImm x kk) := by
  obtain rfl := eq_wordXK_of_toNat (op := 0x7#4) h
  simp [decode_of_op7]

/-- The low nibble of an `8xyn` word selects the instruction (R60). -/
theorem decode_group8Word {w : Word} {x y : Reg} (n : Nibble)
    (h : w.toNat = 0x8000 + n.toNat + 256 * x.val + 16 * y.val) : decode w = decodeGroup8 x y n := by
  obtain rfl : w = wordXYN 0x8#4 x y n := eq_wordXYN_of_toNat (by rw [h, BitVec.toNat_ofNat]; omega)
  simp [decode_of_op8]

/-- An update of registers alone, followed by the advance, has the frame of this family's instructions. -/
theorem RegsUnchangedBut.advance_frame {rs : List Reg} {s t : State} (hr : RegsUnchangedBut rs s t)
    (hv : OnlyChanges [.v] s t) :
    t.advance.pc = s.pc + 2 ∧ RegsUnchangedBut rs s t.advance ∧ OnlyChanges [.v, .pc] s t.advance :=
  ⟨congrArg (· + 2) (hv .pc (by decide)), hr, hv.trans (.advance t)⟩

theorem State.writeV_advance_frame (s : State) (x : Reg) (b : Byte) :
    (s.writeV x b).advance.pc = s.pc + 2 ∧ RegsUnchangedBut [x] s (s.writeV x b).advance ∧
      OnlyChanges [.v, .pc] s (s.writeV x b).advance :=
  (RegsUnchangedBut.writeV s x b).advance_frame (.writeV s x b)

theorem State.writeV_advance_readV_self (s : State) (x : Reg) (b : Byte) : (s.writeV x b).advance.readV x = b := by
  simp

theorem exec_ldImm (x : Reg) (kk : Byte) (s : State) : exec (.ldImm x kk) s = .next (s.writeV x kk).advance := rfl

theorem exec_addImm (x : Reg) (kk : Byte) (s : State) :
    exec (.addImm x kk) s = .next (s.writeV x (s.readV x + kk)).advance := rfl

theorem exec_ldReg (x y : Reg) (s : State) : exec (.ldReg x y) s = .next (s.writeV x (s.readV y)).advance := rfl

theorem exec_orReg (x y : Reg) (s : State) :
    exec (.orReg x y) s = .next (s.writeV x (s.readV x ||| s.readV y)).advance := rfl

theorem exec_andReg (x y : Reg) (s : State) :
    exec (.andReg x y) s = .next (s.writeV x (s.readV x &&& s.readV y)).advance := rfl

theorem exec_xorReg (x y : Reg) (s : State) :
    exec (.xorReg x y) s = .next (s.writeV x (s.readV x ^^^ s.readV y)).advance := rfl

/-- Settles O20: each load is one register write and an advance. -/
theorem registerLoads : Obligations.RegisterLoads :=
  ⟨fun _ _ _ => decode_ldImmWord, fun _ _ _ => decode_group8Word 0x0#4,
    fun s x kk => ⟨_, exec_ldImm x kk s, s.writeV_advance_readV_self x _, s.writeV_advance_frame x _⟩,
    fun s x y => ⟨_, exec_ldReg x y s, s.writeV_advance_readV_self x _, s.writeV_advance_frame x _⟩⟩

/-- Settles O21: one register write of the 8-bit sum, and `VF` is in its frame. -/
theorem addImmediateWrapsWithoutAFlag : Obligations.AddImmediateWrapsWithoutAFlag := by
  refine ⟨fun _ _ _ => decode_addImmWord, fun s x kk =>
    ⟨_, exec_addImm x kk s, ?_, s.writeV_advance_frame x _⟩⟩
  rw [State.writeV_advance_readV_self, BitVec.toNat_add]

/-- Settles O22: each operation is one register write of a word built bit by bit. -/
theorem bitwiseOperations : Obligations.BitwiseOperations := by
  refine ⟨fun _ _ _ => decode_group8Word 0x1#4, fun _ _ _ => decode_group8Word 0x2#4,
    fun _ _ _ => decode_group8Word 0x3#4, fun s x y =>
      ⟨⟨_, exec_orReg x y s, fun k => ?or, s.writeV_advance_frame x _⟩,
        ⟨_, exec_andReg x y s, fun k => ?and, s.writeV_advance_frame x _⟩,
        ⟨_, exec_xorReg x y s, fun k => ?xor, s.writeV_advance_frame x _⟩⟩⟩
  case or => rw [State.writeV_advance_readV_self, BitVec.getLsbD_or]
  case and => rw [State.writeV_advance_readV_self, BitVec.getLsbD_and]
  case xor => rw [State.writeV_advance_readV_self, BitVec.getLsbD_xor]

end Sys2Proof.Machine
end

section
/-! PROOFS. The arithmetic with a flag (43_register_alu.md R91 item 3, R98, R99, R101): each flag as a condition on
naturals, what a result followed by its flag leaves in the registers; and O23 and O24. -/

namespace Sys2Proof.Machine

open Sys2Proof

theorem RegsUnchangedBut.trans {rs qs : List Reg} {s t u : State} (h : RegsUnchangedBut rs s t)
    (h' : RegsUnchangedBut qs t u) : RegsUnchangedBut (rs ++ qs) s u := fun r hr =>
  (h' r fun hq => hr (List.mem_append_right rs hq)).trans (h r fun hm => hr (List.mem_append_left qs hm))

theorem RegsUnchangedBut.mono {rs qs : List Reg} {s t : State} (h : RegsUnchangedBut rs s t) (hsub : rs ⊆ qs) :
    RegsUnchangedBut qs s t := fun r hr => h r fun hm => hr (hsub hm)

/-! ### The flags -/

theorem flagByte_decide (p : Prop) [Decidable p] : flagByte (decide p) = if p then 1 else 0 := by
  simp [flagByte]

theorem carryFlag_eq (a b : Byte) : carryFlag a b = if a.toNat + b.toNat > 255 then 1 else 0 := flagByte_decide _

theorem noBorrowFlag_eq (a b : Byte) : noBorrowFlag a b = if a.toNat ≥ b.toNat then 1 else 0 := flagByte_decide _

/-- The 8-bit difference, with 256 borrowed before the subtraction so that it is exact. -/
theorem Byte.toNat_sub_eq (a b : Byte) : (a - b).toNat = (a.toNat + 256 - b.toNat) % 256 := by
  have hb := b.isLt
  rw [BitVec.toNat_sub]
  omega

/-! ### A result followed by its flag -/

theorem State.writeResultThenFlag_readV_VF (s : State) (x : Reg) (result flag : Byte) :
    (s.writeResultThenFlag x result flag).readV VF = flag := by
  simp [State.writeResultThenFlag]

theorem State.writeResultThenFlag_readV_of_ne (s : State) {x : Reg} (hx : x ≠ VF) (result flag : Byte) :
    (s.writeResultThenFlag x result flag).readV x = result := by
  simp [State.writeResultThenFlag, hx]

theorem RegsUnchangedBut.writeResultThenFlag (s : State) (x : Reg) (result flag : Byte) :
    RegsUnchangedBut [x, VF] s (s.writeResultThenFlag x result flag) :=
  (RegsUnchangedBut.writeV s x result).trans (.writeV _ VF flag)

theorem OnlyChanges.writeResultThenFlag (s : State) (x : Reg) (result flag : Byte) :
    OnlyChanges [.v] s (s.writeResultThenFlag x result flag) :=
  ((OnlyChanges.writeV s x result).trans (.writeV _ VF flag)).mono (by simp)

theorem State.writeResultThenFlag_advance_frame (s : State) (x : Reg) (result flag : Byte) :
    (s.writeResultThenFlag x result flag).advance.pc = s.pc + 2 ∧
      RegsUnchangedBut [x, VF] s (s.writeResultThenFlag x result flag).advance ∧
      OnlyChanges [.v, .pc] s (s.writeResultThenFlag x result flag).advance :=
  (RegsUnchangedBut.writeResultThenFlag s x result flag).advance_frame (.writeResultThenFlag s x result flag)

theorem exec_addReg (x y : Reg) (s : State) : exec (.addReg x y) s =
    .next (s.writeResultThenFlag x (s.readV x + s.readV y) (carryFlag (s.readV x) (s.readV y))).advance := rfl

theorem exec_sub (x y : Reg) (s : State) : exec (.sub x y) s =
    .next (s.writeResultThenFlag x (s.readV x - s.readV y) (noBorrowFlag (s.readV x) (s.readV y))).advance := rfl

theorem exec_subn (x y : Reg) (s : State) : exec (.subn x y) s =
    .next (s.writeResultThenFlag x (s.readV y - s.readV x) (noBorrowFlag (s.readV y) (s.readV x))).advance := rfl

/-- Settles O23: the 8-bit sum, then the carry of the exact sum, both of the old registers. -/
theorem addSetsTheCarry : Obligations.AddSetsTheCarry := by
  refine ⟨fun _ _ _ => decode_group8Word 0x4#4, fun s x y =>
    ⟨_, exec_addReg x y s, fun hx => ?sum, ?carry, s.writeResultThenFlag_advance_frame x _ _⟩⟩
  case sum => rw [State.advance_readV, s.writeResultThenFlag_readV_of_ne hx, BitVec.toNat_add]
  case carry => rw [State.advance_readV, State.writeResultThenFlag_readV_VF, carryFlag_eq]

/-- A difference followed by its flag, as `SUB` and `SUBN` write them for their minuend `a` and subtrahend `b`. -/
theorem State.writeDifference_spec (s : State) (x : Reg) (a b : Byte) :
    let t := (s.writeResultThenFlag x (a - b) (noBorrowFlag a b)).advance
    (x ≠ VF → (t.readV x).toNat = (a.toNat + 256 - b.toNat) % 256) ∧
      t.readV VF = (if a.toNat ≥ b.toNat then 1 else 0) ∧
      t.pc = s.pc + 2 ∧ RegsUnchangedBut [x, VF] s t ∧ OnlyChanges [.v, .pc] s t := by
  refine ⟨fun hx => ?difference, ?noBorrow, s.writeResultThenFlag_advance_frame x _ _⟩
  case difference => rw [State.advance_readV, s.writeResultThenFlag_readV_of_ne hx, Byte.toNat_sub_eq]
  case noBorrow => rw [State.advance_readV, State.writeResultThenFlag_readV_VF, noBorrowFlag_eq]

/-- Settles O24: the two instructions write the same kind of difference, with minuend and subtrahend exchanged. -/
theorem subtractionsSetNoBorrow : Obligations.SubtractionsSetNoBorrow :=
  ⟨fun _ _ _ => decode_group8Word 0x5#4, fun _ _ _ => decode_group8Word 0x7#4, fun s x y =>
    ⟨⟨_, exec_sub x y s, s.writeDifference_spec x _ _⟩, ⟨_, exec_subn x y s, s.writeDifference_spec x _ _⟩⟩⟩

end Sys2Proof.Machine
end

section
/-! PROOFS. The shifts (43_register_alu.md R91 item 4, R100, R102): the bit shifted out as a number, what the
write-back of a shift leaves in the registers under either order; and O25 and O26. -/

namespace Sys2Proof.Machine

open Sys2Proof

/-! ### The bit shifted out, and the shifted byte -/

theorem flagByte_toNat (c : Bool) : (flagByte c).toNat = c.toNat := by
  cases c <;> rfl

theorem shiftedOutRight_toNat (a : Byte) : (shiftedOutRight a).toNat = a.toNat % 2 := by
  rw [shiftedOutRight, flagByte_toNat, BitVec.getLsbD, Nat.toNat_testBit, Nat.pow_zero, Nat.div_one]

theorem shiftedOutLeft_toNat (a : Byte) : (shiftedOutLeft a).toNat = a.toNat / 128 := by
  have ha := a.isLt
  rw [shiftedOutLeft, flagByte_toNat, BitVec.getLsbD, Nat.toNat_testBit]
  omega

theorem Byte.toNat_ushiftRight_one (a : Byte) : (a >>> 1).toNat = a.toNat / 2 := by
  rw [BitVec.toNat_ushiftRight, Nat.shiftRight_eq_div_pow, Nat.pow_one]

theorem Byte.toNat_shiftLeft_one (a : Byte) : (a <<< 1).toNat = a.toNat * 2 % 256 := by
  rw [BitVec.toNat_shiftLeft, Nat.shiftLeft_eq, Nat.pow_one]

/-! ### The write-back of a shift -/

section
variable (s : State) (order : ShiftFlagOrder) (shift : Byte → Byte) (flag : Byte)

/-- Away from `VF` the order does not matter: the result and the flag go to different registers. -/
theorem State.writeShift_of_ne {x : Reg} (hx : x ≠ VF) :
    s.writeShift order x shift flag = s.writeResultThenFlag x (shift (s.readV x)) flag := by
  simp only [State.writeShift, if_neg hx, State.writeResultThenFlag]

theorem State.writeShift_advance_readV_of_ne {x : Reg} (hx : x ≠ VF) :
    (s.writeShift order x shift flag).advance.readV x = shift (s.readV x) ∧
      (s.writeShift order x shift flag).advance.readV VF = flag := by
  rw [s.writeShift_of_ne order shift flag hx]
  exact ⟨s.writeResultThenFlag_readV_of_ne hx _ flag, s.writeResultThenFlag_readV_VF x _ flag⟩

/-- In `VF` either order leaves one value. -/
theorem State.writeShift_VF_eq_writeV : ∃ b, s.writeShift order VF shift flag = s.writeV VF b := ⟨_, if_pos rfl⟩

theorem State.writeShift_flagLast_readV_VF : (s.writeShift .flagLast VF shift flag).readV VF = flag := by
  simp [State.writeShift]

theorem State.writeShift_flagFirst_readV_VF : (s.writeShift .flagFirst VF shift flag).readV VF = shift flag := by
  simp [State.writeShift]

theorem RegsUnchangedBut.writeShift (x : Reg) : RegsUnchangedBut [x, VF] s (s.writeShift order x shift flag) := by
  by_cases hx : x = VF
  · obtain ⟨b, hb⟩ := s.writeShift_VF_eq_writeV order shift flag
    rw [hx, hb]
    exact (RegsUnchangedBut.writeV s VF b).mono (by simp)
  · rw [s.writeShift_of_ne order shift flag hx]
    exact .writeResultThenFlag s x _ flag

theorem OnlyChanges.writeShift (x : Reg) : OnlyChanges [.v] s (s.writeShift order x shift flag) := by
  by_cases hx : x = VF
  · obtain ⟨b, hb⟩ := s.writeShift_VF_eq_writeV order shift flag
    rw [hx, hb]
    exact .writeV s VF b
  · rw [s.writeShift_of_ne order shift flag hx]
    exact .writeResultThenFlag s x _ flag

theorem State.writeShift_advance_frame (x : Reg) :
    (s.writeShift order x shift flag).advance.pc = s.pc + 2 ∧
      RegsUnchangedBut [x, VF] s (s.writeShift order x shift flag).advance ∧
      OnlyChanges [.v, .pc] s (s.writeShift order x shift flag).advance :=
  (RegsUnchangedBut.writeShift s order shift flag x).advance_frame (.writeShift s order shift flag x)

end

theorem exec_shr (x y : Reg) (s : State) : exec (.shr x y) s =
    .next (s.writeShift Config.shiftFlagOrder x (fun b => b >>> 1) (shiftedOutRight (s.readV x))).advance := rfl

theorem exec_shl (x y : Reg) (s : State) : exec (.shl x y) s =
    .next (s.writeShift Config.shiftFlagOrder x (fun b => b <<< 1) (shiftedOutLeft (s.readV x))).advance := rfl

/-- Settles O25: away from `VF` the shifted byte and its flag are apart; in `VF`, `flag_first` shifts the flag out
again. -/
theorem shrShiftsRightIntoVf : Obligations.ShrShiftsRightIntoVf := by
  refine ⟨fun _ _ _ => decode_group8Word 0x6#4, fun s x y y' => (exec_shr x y s).trans (exec_shr x y' s).symm,
    fun s x y => ⟨_, exec_shr x y s, fun hx => ?apart, fun hx => ?inVF, s.writeShift_advance_frame _ _ _ x⟩⟩
  case apart =>
    obtain ⟨hresult, hflag⟩ := s.writeShift_advance_readV_of_ne _ _ _ hx
    rw [hresult, hflag]
    exact ⟨Byte.toNat_ushiftRight_one _, shiftedOutRight_toNat _⟩
  case inVF =>
    subst hx
    rw [State.advance_readV]
    cases Config.shiftFlagOrder with
    | flagLast => rw [State.writeShift_flagLast_readV_VF, shiftedOutRight_toNat]
    | flagFirst =>
      rw [State.writeShift_flagFirst_readV_VF, Byte.toNat_ushiftRight_one, shiftedOutRight_toNat]
      exact Nat.mod_div_self _ _

/-- Settles O26: away from `VF` the shifted byte and its flag are apart; in `VF`, `flag_first` doubles the flag. -/
theorem shlShiftsLeftIntoVf : Obligations.ShlShiftsLeftIntoVf := by
  refine ⟨fun _ _ _ => decode_group8Word 0xE#4, fun s x y y' => (exec_shl x y s).trans (exec_shl x y' s).symm,
    fun s x y => ⟨_, exec_shl x y s, fun hx => ?apart, fun hx => ?inVF, s.writeShift_advance_frame _ _ _ x⟩⟩
  case apart =>
    obtain ⟨hresult, hflag⟩ := s.writeShift_advance_readV_of_ne _ _ _ hx
    rw [hresult, hflag]
    exact ⟨Byte.toNat_shiftLeft_one _, shiftedOutLeft_toNat _⟩
  case inVF =>
    subst hx
    rw [State.advance_readV]
    cases Config.shiftFlagOrder with
    | flagLast => rw [State.writeShift_flagLast_readV_VF, shiftedOutLeft_toNat]
    | flagFirst =>
      have hv := (s.readV VF).isLt
      rw [State.writeShift_flagFirst_readV_VF, Byte.toNat_shiftLeft_one, shiftedOutLeft_toNat]
      show (s.readV VF).toNat / 128 * 2 % 256 = 2 * ((s.readV VF).toNat / 128)
      omega

end Sys2Proof.Machine
end

section
/-! PROOFS. The address-register family (44_address_register.md R103 to R105): the decoding of its words, the frame of
a write of `I` followed by the advance, the value of each new `I` as a number; and O27. -/

namespace Sys2Proof.Machine

open Sys2Proof

theorem decode_ldIWord {w : Word} {nnn : Addr12} (h : w.toNat = 0xA000 + nnn.toNat) :
    decode w = .instr (.ldI nnn) := by
  obtain rfl := eq_wordA_of_toNat (op := 0xA#4) h
  simp [decode_of_opA]

/-- The low byte of an `Fxkk` word selects the instruction (R61). -/
theorem decode_groupFWord {w : Word} {x : Reg} (kk : Byte) (h : w.toNat = 0xF000 + kk.toNat + 256 * x.val) :
    decode w = decodeGroupF x kk := by
  obtain rfl : w = wordXK 0xF#4 x kk := eq_wordXK_of_toNat (by rw [h, BitVec.toNat_ofNat]; omega)
  simp [decode_of_opF]

theorem OnlyChanges.writeI (s : State) (w : Word) : OnlyChanges [.i] s (s.writeI w) := by
  intro p hp
  cases p with
  | i => simp at hp
  | _ => simp [Part.same]

/-- A write of `I` followed by the advance has the frame of this family's instructions. -/
theorem State.writeI_advance_frame (s : State) (w : Word) :
    (s.writeI w).advance.pc = s.pc + 2 ∧ OnlyChanges [.i, .pc] s (s.writeI w).advance :=
  ⟨rfl, (OnlyChanges.writeI s w).trans (.advance _)⟩

theorem exec_ldI (nnn : Addr12) (s : State) : exec (.ldI nnn) s = .next (s.writeI (zextAddr nnn)).advance := rfl

theorem exec_addI (x : Reg) (s : State) :
    exec (.addI x) s = .next (s.writeI (s.i + zextByte (s.readV x))).advance := rfl

theorem exec_ldF (x : Reg) (s : State) : exec (.ldF x) s = .next (s.writeI (glyphAddress (s.readV x))).advance := rfl

theorem Word.toNat_add_zextByte (w : Word) (b : Byte) : (w + zextByte b).toNat = (w.toNat + b.toNat) % 65536 := by
  rw [BitVec.toNat_add, zextByte_toNat]

/-- Five times a whole byte fits in 16 bits, so the glyph address is exact for every byte (R105). -/
theorem glyphAddress_toNat (b : Byte) : (glyphAddress b).toNat = b.toNat * 5 := by
  have hb := b.isLt
  have hsize : (BitVec.ofNat 16 glyphSize).toNat = 5 := rfl
  rw [glyphAddress, BitVec.toNat_mul, zextByte_toNat, hsize]
  omega

/-- Settles O27: each instruction is one write of `I` and an advance, and `VF` is in its frame. -/
theorem addressRegisterInstructions : Obligations.AddressRegisterInstructions :=
  ⟨fun _ _ => decode_ldIWord, fun _ _ => decode_groupFWord 0x1E#8, fun _ _ => decode_groupFWord 0x29#8,
    fun s nnn => ⟨_, exec_ldI nnn s, zextAddr_toNat nnn, s.writeI_advance_frame _⟩,
    fun s x => ⟨_, exec_addI x s, Word.toNat_add_zextByte s.i _, s.writeI_advance_frame _⟩,
    fun s x => ⟨_, exec_ldF x s, glyphAddress_toNat _, s.writeI_advance_frame _⟩⟩

end Sys2Proof.Machine
end

section
/-! PROOFS. The timer instructions (45_random_timers.md R107 to R109): the frames of a timer write, alone and followed
by the advance; and O29. -/

namespace Sys2Proof.Machine

open Sys2Proof

theorem OnlyChanges.writeDt (s : State) (b : Byte) : OnlyChanges [.dt] s (s.writeDt b) := by
  intro p hp
  cases p with
  | dt => simp at hp
  | _ => simp [Part.same]

theorem OnlyChanges.writeSt (s : State) (b : Byte) : OnlyChanges [.st] s (s.writeSt b) := by
  intro p hp
  cases p with
  | st => simp at hp
  | _ => simp [Part.same]

theorem State.writeDt_advance_frame (s : State) (b : Byte) :
    (s.writeDt b).advance.pc = s.pc + 2 ∧ OnlyChanges [.dt, .pc] s (s.writeDt b).advance :=
  ⟨rfl, (OnlyChanges.writeDt s b).trans (.advance _)⟩

theorem State.writeSt_advance_frame (s : State) (b : Byte) :
    (s.writeSt b).advance.pc = s.pc + 2 ∧ OnlyChanges [.st, .pc] s (s.writeSt b).advance :=
  ⟨rfl, (OnlyChanges.writeSt s b).trans (.advance _)⟩

theorem exec_ldVxDt (x : Reg) (s : State) : exec (.ldVxDt x) s = .next (s.writeV x s.dt).advance := rfl

theorem exec_ldDtVx (x : Reg) (s : State) : exec (.ldDtVx x) s = .next (s.writeDt (s.readV x)).advance := rfl

theorem exec_ldStVx (x : Reg) (s : State) : exec (.ldStVx x) s = .next (s.writeSt (s.readV x)).advance := rfl

/-- Settles O29: each instruction is one write, of a register or of a timer, and an advance. -/
theorem timerInstructions : Obligations.TimerInstructions :=
  ⟨fun _ _ => decode_groupFWord 0x07#8, fun _ _ => decode_groupFWord 0x15#8, fun _ _ => decode_groupFWord 0x18#8,
    fun s x =>
      ⟨⟨_, exec_ldVxDt x s, s.writeV_advance_readV_self x _, s.writeV_advance_frame x _⟩,
        ⟨_, exec_ldDtVx x s, rfl, s.writeDt_advance_frame _⟩,
        ⟨_, exec_ldStVx x s, rfl, s.writeSt_advance_frame _⟩⟩⟩

end Sys2Proof.Machine
end

section
/-! PROOFS. The keypad family (46_keypad.md R110 to R113): the decoding of its words, what the two key skips answer on
each side of the index check; and O30 and O31. -/

namespace Sys2Proof.Machine

open Sys2Proof

/-- The low byte of an `Exkk` word selects the instruction (R61). -/
theorem decode_groupEWord {w : Word} {x : Reg} (kk : Byte) (h : w.toNat = 0xE000 + kk.toNat + 256 * x.val) :
    decode w = decodeGroupE x kk := by
  obtain rfl : w = wordXK 0xE#4 x kk := eq_wordXK_of_toNat (by rw [h, BitVec.toNat_ofNat]; omega)
  simp [decode_of_opE]

/-! ### The key skips -/

theorem keyIndex_of_toNat_eq {b : Byte} {k : Fin 16} (h : b.toNat = k.val) : keyIndex b = .ok k := by
  rw [keyIndex_of_lt (by omega)]
  exact congrArg Except.ok (Fin.ext h)

section
variable {s : State} {x : Reg}

theorem exec_skp_of_key {k : Fin 16} (h : (s.readV x).toNat = k.val) :
    exec (.skp x) s = .next (s.skipIf (s.key k)) := by
  rw [exec, execSkp, keyIndex_of_toNat_eq h]
  rfl

theorem exec_sknp_of_key {k : Fin 16} (h : (s.readV x).toNat = k.val) :
    exec (.sknp x) s = .next (s.skipIf (!s.key k)) := by
  rw [exec, execSknp, keyIndex_of_toNat_eq h]
  rfl

theorem exec_skp_of_gt (h : (s.readV x).toNat > 15) :
    exec (.skp x) s = .next (raiseFault (.keyIndexOutOfRange (s.readV x)) s) := by
  rw [exec, execSkp, keyIndex_of_ge h]
  rfl

theorem exec_sknp_of_gt (h : (s.readV x).toNat > 15) :
    exec (.sknp x) s = .next (raiseFault (.keyIndexOutOfRange (s.readV x)) s) := by
  rw [exec, execSknp, keyIndex_of_ge h]
  rfl

end

/-- A skip on a negated condition skips where the condition is false. -/
theorem State.skipIf_not_pc (s : State) (c : Bool) :
    (s.skipIf (!c)).pc = if c = false then s.pc + 4 else s.pc + 2 := by
  cases c <;> rfl

/-- Settles O30: below 16 the index check gives key `k`, on which the two skips ask opposite conditions; above 15 it
raises for both. -/
theorem keySkips : Obligations.KeySkips :=
  ⟨fun _ _ => decode_groupEWord 0x9E#8, fun _ _ => decode_groupEWord 0xA1#8,
    fun s _ k h =>
      ⟨⟨_, exec_skp_of_key h, s.skipIf_pc (s.key k), .skipIf s _⟩,
        ⟨_, exec_sknp_of_key h, s.skipIf_not_pc (s.key k), .skipIf s _⟩⟩,
    fun _ _ h => ⟨exec_skp_of_gt h, exec_sknp_of_gt h⟩⟩

/-! ### The key wait -/

/-- Settles O31: the lowest pressed key decides whether `LD Vx, K` waits or is one register write and an advance. -/
theorem keyWaitStoresTheLowestKey : Obligations.KeyWaitStoresTheLowestKey := by
  refine ⟨fun _ _ => decode_groupFWord 0x0A#8,
    fun s x hnone => exec_ldVxK_of_none x (State.lowestPressed_eq_none.mpr hnone), fun s x k hk hbelow => ?pressed⟩
  case pressed =>
    have hlowest : s.lowestPressed = some k := State.lowestPressed_eq_some.mpr ⟨hk, hbelow⟩
    refine ⟨_, exec_ldVxK_of_some x hlowest, ?_, s.writeV_advance_frame x _⟩
    rw [State.writeV_advance_readV_self, keyByte_toNat]

end Sys2Proof.Machine
end

section
/-! PROOFS. The memory transfer family (47_memory_transfer.md R114 to R116): the store at `I` that two of its
instructions are, the load of registers that the third is, their frames, and what each answers on both sides of its range
check; and O34, O35 and O36. -/

namespace Sys2Proof.Machine

open Sys2Proof

/-! ### Frames -/

theorem OnlyChanges.writeMem (s : State) (m : Memory) : OnlyChanges [.mem] s (s.writeMem m) := by
  intro p hp
  cases p with
  | mem => simp at hp
  | _ => simp [Part.same]

theorem OnlyChanges.writeAllV (s : State) (v : Vector Byte 16) : OnlyChanges [.v] s (s.writeAllV v) := by
  intro p hp
  cases p with
  | v => simp at hp
  | _ => simp [Part.same]

/-! ### The store at `I` -/

/-- The state a legal store of `bs` at `I` ends in. -/
def State.afterStore (s : State) (bs : List Byte) : State :=
  (s.writeMem (s.mem.writeBytes s.i.toNat bs)).advance

/-- How an instruction ends that stores `bs` at `I`. -/
def State.storeAtI (s : State) (bs : List Byte) : Host.Outcome State Fault Refusal :=
  commit s (.ofExcept (memWrite s.mem s.i.toNat bs) fun m => .done (s.writeMem m).advance)

theorem exec_ldB (x : Reg) (s : State) : exec (.ldB x) s = s.storeAtI (bcdDigits (s.readV x)) := rfl

theorem exec_ldMemVx (x : Reg) (s : State) : exec (.ldMemVx x) s = s.storeAtI (s.regsUpTo x) := rfl

section
variable {s : State} {bs : List Byte}

theorem State.storeAtI_of_le (h : s.i.toNat + bs.length ≤ 4096) : s.storeAtI bs = .next (s.afterStore bs) := by
  rw [State.storeAtI, memWrite_of_le s.mem (.inr h)]
  rfl

theorem State.storeAtI_of_gt (h0 : 0 < bs.length) (h : 4096 < s.i.toNat + bs.length) :
    s.storeAtI bs = .next (raiseFault (.memoryOutOfRange (max s.i.toNat 4096)) s) := by
  rw [State.storeAtI, memWrite_of_gt s.mem h0 h]
  rfl

theorem State.afterStore_read_inside {k : Nat} (h : k < bs.length) :
    (s.afterStore bs).mem.read (s.i.toNat + k) = bs[k] :=
  s.mem.read_writeBytes_inside s.i.toNat k bs h

theorem State.afterStore_read_outside {a : Nat} (h : a < s.i.toNat ∨ s.i.toNat + bs.length ≤ a) :
    (s.afterStore bs).mem.read a = s.mem.read a :=
  s.mem.read_writeBytes_outside s.i.toNat a bs h

end

theorem State.afterStore_frame (s : State) (bs : List Byte) :
    (s.afterStore bs).pc = s.pc + 2 ∧ OnlyChanges [.mem, .pc] s (s.afterStore bs) :=
  ⟨rfl, (OnlyChanges.writeMem s _).trans (.advance _)⟩

/-! ### The decimal digits -/

/-- Each decimal digit of a byte fits in a byte, so the stored digits are the exact quotients and remainders (R114). -/
theorem bcdDigits_toNat (b : Byte) : (bcdDigits b)[0].toNat = b.toNat / 100 ∧
    (bcdDigits b)[1].toNat = b.toNat / 10 % 10 ∧ (bcdDigits b)[2].toNat = b.toNat % 10 := by
  have hb := b.isLt
  simp only [bcdDigits, List.getElem_cons_zero, List.getElem_cons_succ, BitVec.toNat_ofNat]
  omega

/-- Settles O34: `LD B` is the store of the three digits, byte `k` of which is digit `k`. -/
theorem ldBStoresTheDecimalDigits : Obligations.LdBStoresTheDecimalDigits := by
  refine ⟨fun _ _ => decode_groupFWord 0x33#8, fun s x h => ?stores, fun s x h => ?raises⟩
  case stores =>
    obtain ⟨hundreds, tens, ones⟩ := bcdDigits_toNat (s.readV x)
    have hdigit (k : Nat) (hk : k < 3) :
        ((s.afterStore (bcdDigits (s.readV x))).mem.read (s.i.toNat + k)).toNat = (bcdDigits (s.readV x))[k].toNat :=
      congrArg BitVec.toNat (State.afterStore_read_inside hk)
    exact ⟨_, (exec_ldB x s).trans (State.storeAtI_of_le h), (hdigit 0 (by decide)).trans hundreds,
      (hdigit 1 (by decide)).trans tens, (hdigit 2 (by decide)).trans ones,
      fun _ ha => State.afterStore_read_outside ha, s.afterStore_frame _⟩
  case raises => exact (exec_ldB x s).trans (State.storeAtI_of_gt (by simp) (Nat.lt_succ_of_le h))

/-! ### The register transfers -/

/-- Settles O35: `LD [I], Vx` is the store of `V[0]` to `V[x]`, byte `j` of which is `V[j]`. -/
theorem ldMemStoresTheRegisters : Obligations.LdMemStoresTheRegisters := by
  refine ⟨fun _ _ => decode_groupFWord 0x55#8, fun s x h => ?stores, fun s x h => ?raises⟩
  case stores =>
    have hlen := s.length_regsUpTo x
    refine ⟨_, (exec_ldMemVx x s).trans (State.storeAtI_of_le (by omega)), fun j hj => ?_,
      fun _ ha => State.afterStore_read_outside (by omega), s.afterStore_frame _⟩
    have hjlen : j.val < (s.regsUpTo x).length := by rw [hlen]; exact Nat.lt_succ_of_le hj
    rw [State.afterStore_read_inside hjlen, State.getElem_regsUpTo]
  case raises =>
    have hlen := s.length_regsUpTo x
    exact (exec_ldMemVx x s).trans (State.storeAtI_of_gt (by omega) (by omega))

/-- The state a legal `LD Vx, [I]` ends in. -/
def State.afterLoad (s : State) (x : Reg) : State :=
  (s.writeAllV (loadRegs s.v 0 (s.mem.readBytes s.i.toNat (x.val + 1)))).advance

theorem exec_ldVxMem_of_lt {s : State} {x : Reg} (h : s.i.toNat + x.val < 4096) :
    exec (.ldVxMem x) s = .next (s.afterLoad x) := by
  rw [exec, execLdVxMem, memRead_of_le s.mem (.inr h)]
  rfl

theorem exec_ldVxMem_of_ge {s : State} {x : Reg} (h : 4096 ≤ s.i.toNat + x.val) :
    exec (.ldVxMem x) s = .next (raiseFault (.memoryOutOfRange (max s.i.toNat 4096)) s) := by
  rw [exec, execLdVxMem, memRead_of_gt s.mem (Nat.succ_pos _) (Nat.lt_succ_of_le h)]
  rfl

/-- The registers up to `x` hold the bytes read, and those above are not reached by the load. -/
theorem State.afterLoad_readV (s : State) (x j : Reg) :
    (s.afterLoad x).readV j = if j ≤ x then s.mem.read (s.i.toNat + j.val) else s.readV j := by
  rw [State.afterLoad, State.advance_readV, State.writeAllV_readV, getElem_loadRegs, if_pos (Nat.zero_le _),
    Nat.sub_zero]
  split
  case isTrue hj =>
    rw [Memory.getElem?_readBytes _ _ _ _ (Nat.lt_succ_of_le hj)]
    rfl
  case isFalse hj =>
    rw [List.getElem?_eq_none (by rw [Memory.length_readBytes]; exact Nat.lt_of_not_le hj)]
    rfl

theorem State.afterLoad_frame (s : State) (x : Reg) :
    (s.afterLoad x).pc = s.pc + 2 ∧ OnlyChanges [.v, .pc] s (s.afterLoad x) :=
  ⟨rfl, (OnlyChanges.writeAllV s _).trans (.advance _)⟩

/-- Settles O36: the range check decides between the load of the registers up to `x` and the raise. -/
theorem ldVxMemLoadsTheRegisters : Obligations.LdVxMemLoadsTheRegisters :=
  ⟨fun _ _ => decode_groupFWord 0x65#8,
    fun s x h => ⟨_, exec_ldVxMem_of_lt h, s.afterLoad_readV x, s.afterLoad_frame x⟩, fun _ _ => exec_ldVxMem_of_ge⟩

end Sys2Proof.Machine
end

section
/-! PROOFS. Precise faults (60_exceptions.md R121): every instruction keeps the faulted status or raises from the state
it started in, the step likewise, the driver's reply to a fault, and O39. -/

namespace Sys2Proof.Machine

open Sys2Proof

/-- A checked access whose continuation keeps the faulted status commits that, and else only its fault. -/
theorem commit_ofExcept_keepsFaulted_or_raises {α : Type} {s : State} (e : Except Fault α) {k : α → State}
    (hk : ∀ a, e = .ok a → (k a).faulted = s.faulted) :
    ∃ t, commit s (.ofExcept e fun a => .done (k a)) = .next t ∧
      (t.faulted = s.faulted ∨ ∃ f, t = raiseFault f s) := by
  cases e with
  | ok a => exact ⟨k a, rfl, .inl (hk a rfl)⟩
  | error f => exact ⟨raiseFault f s, rfl, .inr ⟨f, rfl⟩⟩

theorem State.push_faulted {s s' : State} {w : Word} (h : s.push w = .ok s') : s'.faulted = s.faulted := by
  rcases s.push_cases w with ⟨_, hpush⟩ | ⟨-, hpush⟩
  · cases hpush.symm.trans h
    rfl
  · cases hpush.symm.trans h

theorem State.pop_faulted {s : State} {r : Word × State} (h : s.pop = .ok r) : r.2.faulted = s.faulted := by
  rcases s.pop_cases with ⟨_, hpop⟩ | ⟨-, hpop⟩
  · cases hpop.symm.trans h
    rfl
  · cases hpop.symm.trans h

/-- An instruction that records a fault does so by raising it: no rule writes the faulted status otherwise. -/
theorem exec_keepsFaulted_or_raises (i : Instr) (s : State) :
    ∃ t, exec i s = .next t ∧ (t.faulted = s.faulted ∨ ∃ f, t = raiseFault f s) := by
  cases i with
  | ret => exact commit_ofExcept_keepsFaulted_or_raises _ fun _ => State.pop_faulted
  | call => exact commit_ofExcept_keepsFaulted_or_raises _ fun _ => State.push_faulted
  | drw | skp | sknp | ldB | ldMemVx | ldVxMem => exact commit_ofExcept_keepsFaulted_or_raises _ fun _ _ => rfl
  | ldVxK x =>
    cases hkey : s.lowestPressed with
    | none => exact ⟨s, exec_ldVxK_of_none x hkey, .inl rfl⟩
    | some k => exact ⟨_, exec_ldVxK_of_some x hkey, .inl rfl⟩
  | shr | shl => exact ⟨_, rfl, .inl (OnlyChanges.writeShift s _ _ _ _ .faulted (by decide))⟩
  | cls | jp | seImm | sneImm | seReg | sneReg | ldImm | addImm | ldReg | orReg | andReg | xorReg | addReg | sub | subn
  | ldI | jpV0 | rnd | ldVxDt | ldDtVx | ldStVx | addI | ldF => exact ⟨_, rfl, .inl rfl⟩

/-- A step that answers a state with a fault recorded raised that fault (R121). -/
theorem step_eq_raiseFault {s t : State} {f : Fault} (h : step s = .next t) (hf : t.faulted = some f) :
    t = raiseFault f s := by
  obtain ⟨hn, hraise | ⟨i, -, -, he⟩⟩ := step_next_cases h
  · obtain ⟨g, rfl⟩ := hraise
    cases hf
    rfl
  · obtain ⟨u, hu, hends⟩ := exec_keepsFaulted_or_raises i s
    cases hu.symm.trans he
    rcases hends with hkept | ⟨g, rfl⟩
    · rw [hkept, hn] at hf
      cases hf
    · cases hf
      rfl

theorem stepReply_of_faulted {s t : State} {f : Fault} (h : t.faulted = some f) :
    stepReply s t = .fault f.code f.info := by
  simp [stepReply, h]

/-- Settles O39: the step raised the fault it answers, and the driver's reply carries that fault's code and info. -/
theorem faultsArePrecise : Obligations.FaultsArePrecise := by
  intro s t f h hf
  refine ⟨step_eq_raiseFault h hf, ?_⟩
  rw [hostStep_of_next h, stepReply_of_faulted hf]
  cases f <;> rfl

end Sys2Proof.Machine
end

section
/-! PROOFS. The key operations (60_exceptions.md R127): their answer inside the closed set and outside it, and O57. -/

namespace Sys2Proof.Machine

open Sys2Proof

theorem OnlyChanges.setKey (s : State) (k : Fin 16) (pressed : Bool) : OnlyChanges [.keys] s (s.setKey k pressed) := by
  intro p hp
  cases p with
  | keys => simp at hp
  | _ => simp [Part.same]

theorem hostKey_of_fin (k : Fin 16) (pressed : Bool) (s : State) :
    hostKey k.val pressed s = .next (s.setKey k pressed, .nothing) :=
  dif_pos k.isLt

theorem hostKey_of_not_wfKeyId {k : Nat} (h : wfKeyId k = false) (pressed : Bool) (s : State) :
    hostKey k pressed s = .refused (.keyIdOutOfSet k) :=
  dif_neg (of_decide_eq_false h)

/-- Settles O57: both operations are `hostKey`, which writes the one flag or refuses the identifier. -/
theorem keyOperationsSetOneFlag : Obligations.KeyOperationsSetOneFlag :=
  ⟨fun _ s k =>
      ⟨⟨_, hostKey_of_fin k true s, fun j => s.key_setKey k j true, .setKey s k true⟩,
        ⟨_, hostKey_of_fin k false s, fun j => s.key_setKey k j false, .setKey s k false⟩⟩,
    fun _ s _ h => ⟨hostKey_of_not_wfKeyId h true s, hostKey_of_not_wfKeyId h false s⟩⟩

end Sys2Proof.Machine
end

section
/-! PROOFS. The decoder and the encoder are inverse (30_encoding.md R56 to R61): the decoding of a built word by its
format, the fields a decoded word was built from; and O1, O2 and O3. -/

namespace Sys2Proof

/-! ### Decoding a built word -/

@[simp] theorem decode_wordXYN_op8 (x y : Reg) (n : Nibble) : decode (wordXYN 0x8#4 x y n) = decodeGroup8 x y n := by
  simp [decode_of_op8]

@[simp] theorem decode_wordXK_opE (x : Reg) (kk : Byte) : decode (wordXK 0xE#4 x kk) = decodeGroupE x kk := by
  simp [decode_of_opE]

@[simp] theorem decode_wordXK_opF (x : Reg) (kk : Byte) : decode (wordXK 0xF#4 x kk) = decodeGroupF x kk := by
  simp [decode_of_opF]

/-- Settles O2, by the format of the instruction's word: the first field selects the decoder's arm, and in the groups
8, E and F the constant last field selects the instruction. -/
theorem decodeOfEncodeGivesTheInstruction : Obligations.DecodeOfEncodeGivesTheInstruction := by
  intro i
  cases i with
  | cls | ret => rfl
  | jp nnn => simp [encode, decode_of_op1]
  | call nnn => simp [encode, decode_of_op2]
  | ldI nnn => simp [encode, decode_of_opA]
  | jpV0 nnn => simp [encode, decode_of_opB]
  | seImm x kk => simp [encode, decode_of_op3]
  | sneImm x kk => simp [encode, decode_of_op4]
  | ldImm x kk => simp [encode, decode_of_op6]
  | addImm x kk => simp [encode, decode_of_op7]
  | rnd x kk => simp [encode, decode_of_opC]
  | seReg x y => simp [encode, decode_of_op5]
  | sneReg x y => simp [encode, decode_of_op9]
  | drw x y n => simp [encode, decode_of_opD]
  | ldReg x y | orReg x y | andReg x y | xorReg x y | addReg x y | sub x y | shr x y | subn x y | shl x y =>
    exact decode_wordXYN_op8 x y _
  | skp x | sknp x => exact decode_wordXK_opE x _
  | ldVxDt x | ldVxK x | ldDtVx x | ldStVx x | addI x | ldF x | ldB x | ldMemVx x | ldVxMem x =>
    exact decode_wordXK_opF x _

/-- Settles O1, by running the decoder on the 34 words. -/
theorem writtenOutWordsDecode : Obligations.WrittenOutWordsDecode := by
  unfold Obligations.WrittenOutWordsDecode
  decide

/-! ### The word a decoded instruction came from -/

section
variable {w : Word} {op : Nibble} (h : fieldOp w = op)
include h

theorem wordA_eq_of_fieldOp : wordA op (fieldNNN w) = w := h ▸ wordA_fields w

theorem wordXK_eq_of_fieldOp : wordXK op (fieldX w).toFin (fieldKK w) = w := h ▸ wordXK_fields w

theorem wordXYN_eq_of_fieldOp : wordXYN op (fieldX w).toFin (fieldY w).toFin (fieldN w) = w := h ▸ wordXYN_fields w

end

theorem encode_of_decodeGroup0 {w : Word} {i : Instr} (h : decodeGroup0 w = .instr i) : encode i = w := by
  unfold decodeGroup0 at h
  split_ifs at h <;> cases h <;> exact Eq.symm ‹_›

theorem encode_of_decodeGroup8 {x y : Reg} {n : Nibble} {i : Instr} (h : decodeGroup8 x y n = .instr i) :
    encode i = wordXYN 0x8#4 x y n := by
  unfold decodeGroup8 at h
  split_ifs at h with hn hn hn hn hn hn hn hn hn <;> cases h <;> rw [hn] <;> rfl

theorem encode_of_decodeGroupE {x : Reg} {kk : Byte} {i : Instr} (h : decodeGroupE x kk = .instr i) :
    encode i = wordXK 0xE#4 x kk := by
  unfold decodeGroupE at h
  split_ifs at h with hk hk <;> cases h <;> rw [hk] <;> rfl

theorem encode_of_decodeGroupF {x : Reg} {kk : Byte} {i : Instr} (h : decodeGroupF x kk = .instr i) :
    encode i = wordXK 0xF#4 x kk := by
  unfold decodeGroupF at h
  split_ifs at h with hk hk hk hk hk hk hk hk hk <;> cases h <;> rw [hk] <;> rfl

/-- Settles O3, by the value of the first field: it fixes the decoder's arm, whose instruction keeps every field of the
word, and the word is built from its fields. -/
theorem encodeOfDecodeGivesTheWord : Obligations.EncodeOfDecodeGivesTheWord := by
  intro w i h
  rcases fieldOp_cases w with ho | ho | ho | ho | ho | ho | ho | ho | ho | ho | ho | ho | ho | ho | ho | ho
  · rw [decode_of_op0 ho] at h
    exact encode_of_decodeGroup0 h
  · cases (decode_of_op1 ho).symm.trans h
    exact wordA_eq_of_fieldOp ho
  · cases (decode_of_op2 ho).symm.trans h
    exact wordA_eq_of_fieldOp ho
  · cases (decode_of_op3 ho).symm.trans h
    exact wordXK_eq_of_fieldOp ho
  · cases (decode_of_op4 ho).symm.trans h
    exact wordXK_eq_of_fieldOp ho
  · rw [decode_of_op5 ho] at h
    split_ifs at h with hn
    cases h
    have hw := wordXYN_eq_of_fieldOp ho
    rw [hn] at hw
    exact hw
  · cases (decode_of_op6 ho).symm.trans h
    exact wordXK_eq_of_fieldOp ho
  · cases (decode_of_op7 ho).symm.trans h
    exact wordXK_eq_of_fieldOp ho
  · exact (encode_of_decodeGroup8 ((decode_of_op8 ho).symm.trans h)).trans (wordXYN_eq_of_fieldOp ho)
  · rw [decode_of_op9 ho] at h
    split_ifs at h with hn
    cases h
    have hw := wordXYN_eq_of_fieldOp ho
    rw [hn] at hw
    exact hw
  · cases (decode_of_opA ho).symm.trans h
    exact wordA_eq_of_fieldOp ho
  · cases (decode_of_opB ho).symm.trans h
    exact wordA_eq_of_fieldOp ho
  · cases (decode_of_opC ho).symm.trans h
    exact wordXK_eq_of_fieldOp ho
  · cases (decode_of_opD ho).symm.trans h
    exact wordXYN_eq_of_fieldOp ho
  · exact (encode_of_decodeGroupE ((decode_of_opE ho).symm.trans h)).trans (wordXK_eq_of_fieldOp ho)
  · exact (encode_of_decodeGroupF ((decode_of_opF ho).symm.trans h)).trans (wordXK_eq_of_fieldOp ho)

end Sys2Proof
end

section
/-! PROOFS. The opcode table (30_encoding.md R60): a word that a row accepts decodes to an instruction of that row, and
only such a word does; and O4. -/

namespace Sys2Proof

open Sys2Proof.Laws

theorem OpcodeRow.accepts_iff (r : OpcodeRow) (w : Word) : r.accepts w = true ↔ w &&& r.mask = r.pattern :=
  decide_eq_true_iff

/-- The word of an instruction is one of the instruction's own row. -/
theorem encode_mem_row : ∀ i : Instr, EncodeInRow.Statement i
  | .cls => EncodeInRow.cls
  | .ret => EncodeInRow.ret
  | .jp nnn => EncodeInRow.jp nnn
  | .call nnn => EncodeInRow.call nnn
  | .seImm x kk => EncodeInRow.seImm x kk
  | .sneImm x kk => EncodeInRow.sneImm x kk
  | .seReg x y => EncodeInRow.seReg x y
  | .ldImm x kk => EncodeInRow.ldImm x kk
  | .addImm x kk => EncodeInRow.addImm x kk
  | .ldReg x y => EncodeInRow.ldReg x y
  | .orReg x y => EncodeInRow.orReg x y
  | .andReg x y => EncodeInRow.andReg x y
  | .xorReg x y => EncodeInRow.xorReg x y
  | .addReg x y => EncodeInRow.addReg x y
  | .sub x y => EncodeInRow.sub x y
  | .shr x y => EncodeInRow.shr x y
  | .subn x y => EncodeInRow.subn x y
  | .shl x y => EncodeInRow.shl x y
  | .sneReg x y => EncodeInRow.sneReg x y
  | .ldI nnn => EncodeInRow.ldI nnn
  | .jpV0 nnn => EncodeInRow.jpV0 nnn
  | .rnd x kk => EncodeInRow.rnd x kk
  | .drw x y n => EncodeInRow.drw x y n
  | .skp x => EncodeInRow.skp x
  | .sknp x => EncodeInRow.sknp x
  | .ldVxDt x => EncodeInRow.ldVxDt x
  | .ldVxK x => EncodeInRow.ldVxK x
  | .ldDtVx x => EncodeInRow.ldDtVx x
  | .ldStVx x => EncodeInRow.ldStVx x
  | .addI x => EncodeInRow.addI x
  | .ldF x => EncodeInRow.ldF x
  | .ldB x => EncodeInRow.ldB x
  | .ldMemVx x => EncodeInRow.ldMemVx x
  | .ldVxMem x => EncodeInRow.ldVxMem x

theorem Instr.row_mem_opcodeTable (i : Instr) : i.row ∈ opcodeTable := by
  cases i <;> simp [opcodeTable, Instr.row]

/-! ### A word that a row accepts -/

theorem decode_of_maskGroup8 {w : Word} (n : Nibble) (h : w &&& 0xF00F#16 = wordXYN 0x8#4 0 0 n) :
    decode w = decodeGroup8 (fieldX w).toFin (fieldY w).toFin n := by
  obtain ⟨ho, hn⟩ := fields_of_maskXYN h
  rw [decode_of_op8 ho, hn]

theorem decode_of_maskGroupE {w : Word} (kk : Byte) (h : w &&& 0xF0FF#16 = wordXK 0xE#4 0 kk) :
    decode w = decodeGroupE (fieldX w).toFin kk := by
  obtain ⟨ho, hk⟩ := fields_of_maskXK h
  rw [decode_of_opE ho, hk]

theorem decode_of_maskGroupF {w : Word} (kk : Byte) (h : w &&& 0xF0FF#16 = wordXK 0xF#4 0 kk) :
    decode w = decodeGroupF (fieldX w).toFin kk := by
  obtain ⟨ho, hk⟩ := fields_of_maskXK h
  rw [decode_of_opF ho, hk]

theorem Word.eq_of_fullMask {w p : Word} (h : w &&& 0xFFFF#16 = p) : w = p := by
  rwa [show (0xFFFF#16 : Word) = BitVec.allOnes 16 from rfl, BitVec.and_allOnes] at h

/-- A word that the row of `i` accepts decodes to an instruction of that row. -/
theorem decode_of_row_accepts {i : Instr} {w : Word} (h : i.row.accepts w = true) :
    ∃ j, decode w = .instr j ∧ j.row = i.row := by
  have hm := (OpcodeRow.accepts_iff _ w).mp h
  cases i with
  | cls => exact ⟨.cls, Word.eq_of_fullMask hm ▸ rfl, rfl⟩
  | ret => exact ⟨.ret, Word.eq_of_fullMask hm ▸ rfl, rfl⟩
  | jp => exact ⟨_, decode_of_op1 (fieldOp_of_maskA hm), rfl⟩
  | call => exact ⟨_, decode_of_op2 (fieldOp_of_maskA hm), rfl⟩
  | seImm => exact ⟨_, decode_of_op3 (fieldOp_of_maskA hm), rfl⟩
  | sneImm => exact ⟨_, decode_of_op4 (fieldOp_of_maskA hm), rfl⟩
  | ldImm => exact ⟨_, decode_of_op6 (fieldOp_of_maskA hm), rfl⟩
  | addImm => exact ⟨_, decode_of_op7 (fieldOp_of_maskA hm), rfl⟩
  | ldI => exact ⟨_, decode_of_opA (fieldOp_of_maskA hm), rfl⟩
  | jpV0 => exact ⟨_, decode_of_opB (fieldOp_of_maskA hm), rfl⟩
  | rnd => exact ⟨_, decode_of_opC (fieldOp_of_maskA hm), rfl⟩
  | drw => exact ⟨_, decode_of_opD (fieldOp_of_maskA hm), rfl⟩
  | seReg =>
    obtain ⟨ho, hn⟩ := fields_of_maskXYN (op := 0x5#4) (n := 0#4) hm
    exact ⟨_, (decode_of_op5 ho).trans (if_pos hn), rfl⟩
  | sneReg =>
    obtain ⟨ho, hn⟩ := fields_of_maskXYN (op := 0x9#4) (n := 0#4) hm
    exact ⟨_, (decode_of_op9 ho).trans (if_pos hn), rfl⟩
  | ldReg => exact ⟨_, decode_of_maskGroup8 0x0#4 hm, rfl⟩
  | orReg => exact ⟨_, decode_of_maskGroup8 0x1#4 hm, rfl⟩
  | andReg => exact ⟨_, decode_of_maskGroup8 0x2#4 hm, rfl⟩
  | xorReg => exact ⟨_, decode_of_maskGroup8 0x3#4 hm, rfl⟩
  | addReg => exact ⟨_, decode_of_maskGroup8 0x4#4 hm, rfl⟩
  | sub => exact ⟨_, decode_of_maskGroup8 0x5#4 hm, rfl⟩
  | shr => exact ⟨_, decode_of_maskGroup8 0x6#4 hm, rfl⟩
  | subn => exact ⟨_, decode_of_maskGroup8 0x7#4 hm, rfl⟩
  | shl => exact ⟨_, decode_of_maskGroup8 0xE#4 hm, rfl⟩
  | skp => exact ⟨_, decode_of_maskGroupE 0x9E#8 hm, rfl⟩
  | sknp => exact ⟨_, decode_of_maskGroupE 0xA1#8 hm, rfl⟩
  | ldVxDt => exact ⟨_, decode_of_maskGroupF 0x07#8 hm, rfl⟩
  | ldVxK => exact ⟨_, decode_of_maskGroupF 0x0A#8 hm, rfl⟩
  | ldDtVx => exact ⟨_, decode_of_maskGroupF 0x15#8 hm, rfl⟩
  | ldStVx => exact ⟨_, decode_of_maskGroupF 0x18#8 hm, rfl⟩
  | addI => exact ⟨_, decode_of_maskGroupF 0x1E#8 hm, rfl⟩
  | ldF => exact ⟨_, decode_of_maskGroupF 0x29#8 hm, rfl⟩
  | ldB => exact ⟨_, decode_of_maskGroupF 0x33#8 hm, rfl⟩
  | ldMemVx => exact ⟨_, decode_of_maskGroupF 0x55#8 hm, rfl⟩
  | ldVxMem => exact ⟨_, decode_of_maskGroupF 0x65#8 hm, rfl⟩

/-- A row of the table that accepts a word is the row of the instruction the word decodes to. -/
theorem decode_of_accepts {r : OpcodeRow} {w : Word} (hr : r ∈ opcodeTable) (h : r.accepts w = true) :
    ∃ j, decode w = .instr j ∧ j.row = r := by
  obtain ⟨i, -, rfl⟩ := List.mem_map.mp hr
  exact decode_of_row_accepts h

/-- Settles O4: the row that accepts a word is the row of the instruction decoded from it, so that there is at most one,
and none for an `Unknown` word. -/
theorem decoderAgreesWithTheOpcodeTable : Obligations.DecoderAgreesWithTheOpcodeTable := by
  refine ⟨rfl, fun w r q hr hq hrw hqw => ?disjoint, fun w i h => ⟨i.row_mem_opcodeTable, ?accepted⟩,
    fun w h r hr => ?unknown⟩
  case disjoint =>
    obtain ⟨i, hi, rfl⟩ := decode_of_accepts hr hrw
    obtain ⟨j, hj, rfl⟩ := decode_of_accepts hq hqw
    cases hi.symm.trans hj
    rfl
  case accepted =>
    obtain rfl := encodeOfDecodeGivesTheWord w i h
    exact (OpcodeRow.accepts_iff _ _).mpr (encode_mem_row i)
  case unknown =>
    refine Bool.eq_false_of_not_eq_true fun hrw => ?_
    obtain ⟨i, hi, -⟩ := decode_of_accepts hr hrw
    cases h.symm.trans hi

end Sys2Proof
end

section
/-! PROOFS. The illegal words (30_encoding.md R62): when each group of the decoder gives `Unknown`, in the digits of the
word as numbers; and O5. -/

namespace Sys2Proof

theorem decodeGroup0_eq_unknown_iff (w : Word) :
    decodeGroup0 w = .unknown ↔ w.toNat ≠ 0x00E0 ∧ w.toNat ≠ 0x00EE := by
  unfold decodeGroup0
  split_ifs <;> simp_all [BitVec.toNat_eq]

theorem decodeGroup8_eq_unknown_iff (x y : Reg) (n : Nibble) :
    decodeGroup8 x y n = .unknown ↔ n.toNat ∈ [0x8, 0x9, 0xA, 0xB, 0xC, 0xD, 0xF] := by
  have hn := n.isLt
  unfold decodeGroup8
  split_ifs <;> simp_all [BitVec.toNat_eq]
  omega

theorem decodeGroupE_eq_unknown_iff (x : Reg) (kk : Byte) :
    decodeGroupE x kk = .unknown ↔ kk.toNat ∉ [0x9E, 0xA1] := by
  unfold decodeGroupE
  split_ifs <;> simp_all [BitVec.toNat_eq]

theorem decodeGroupF_eq_unknown_iff (x : Reg) (kk : Byte) :
    decodeGroupF x kk = .unknown ↔ kk.toNat ∉ [0x07, 0x0A, 0x15, 0x18, 0x1E, 0x29, 0x33, 0x55, 0x65] := by
  unfold decodeGroupF
  split_ifs <;> simp_all [BitVec.toNat_eq]

/-- Settles O5, by the value of the first field: six of its values select a group with illegal words, and the other ten
an instruction. -/
theorem unknownWordsAreTheSixIllegalSets : Obligations.UnknownWordsAreTheSixIllegalSets := by
  intro w
  rw [← fieldOp_toNat w, ← fieldN_toNat w, ← fieldKK_toNat w]
  rcases fieldOp_cases w with ho | ho | ho | ho | ho | ho | ho | ho | ho | ho | ho | ho | ho | ho | ho | ho
  · simp [decode_of_op0 ho, ho, decodeGroup0_eq_unknown_iff]
  · simp [decode_of_op1 ho, ho]
  · simp [decode_of_op2 ho, ho]
  · simp [decode_of_op3 ho, ho]
  · simp [decode_of_op4 ho, ho]
  · simp [decode_of_op5 ho, ho, BitVec.toNat_eq (x := fieldN w)]
  · simp [decode_of_op6 ho, ho]
  · simp [decode_of_op7 ho, ho]
  · simp [decode_of_op8 ho, ho, decodeGroup8_eq_unknown_iff]
  · simp [decode_of_op9 ho, ho, BitVec.toNat_eq (x := fieldN w)]
  · simp [decode_of_opA ho, ho]
  · simp [decode_of_opB ho, ho]
  · simp [decode_of_opC ho, ho]
  · simp [decode_of_opD ho, ho]
  · simp [decode_of_opE ho, ho, decodeGroupE_eq_unknown_iff]
  · simp [decode_of_opF ho, ho, decodeGroupF_eq_unknown_iff]

end Sys2Proof
end

section
/-! PROOFS. Both answers of each instruction that can raise, by the check that decides between them (60_exceptions.md
R117). -/

namespace Sys2Proof.Machine

open Sys2Proof

/-- The stack is empty, or some slot is the last one in use. -/
theorem State.sp_cases (s : State) : s.sp.val = 0 ∨ ∃ n : Fin 16, s.sp.val = n.val + 1 := by
  rcases Nat.eq_zero_or_pos s.sp.val with h | h
  · exact .inl h
  · exact .inr ⟨⟨s.sp.val - 1, by omega⟩, by dsimp only; omega⟩

theorem exec_ret_cases (s : State) :
    (∃ n : Fin 16, s.sp.val = n.val + 1 ∧ exec .ret s = .next (s.afterRet n)) ∨
    (s.sp.val = 0 ∧ exec .ret s = .next (raiseFault (.stackUnderflow s.pc) s)) := by
  rcases s.sp_cases with h | ⟨n, h⟩
  · exact .inr ⟨h, exec_ret_of_empty h⟩
  · exact .inl ⟨n, h, exec_ret_of_succ h⟩

theorem exec_call_cases (nnn : Addr12) (s : State) :
    (∃ n : Fin 16, s.sp.val = n.val ∧ exec (.call nnn) s = .next (s.afterCall nnn n)) ∨
    (s.sp.val = 16 ∧ exec (.call nnn) s = .next (raiseFault (.stackOverflow s.pc) s)) := by
  by_cases h : s.sp.val < 16
  · exact .inl ⟨⟨s.sp.val, h⟩, rfl, exec_call_of_lt nnn h⟩
  · have hfull : s.sp.val = 16 := by omega
    exact .inr ⟨hfull, exec_call_of_full nnn hfull⟩

theorem exec_drw_cases (x y : Reg) (n : Fin 16) (s : State) :
    exec (.drw x y n) s = .next (s.afterDrw x y n.val) ∨
    (0 < n.val ∧ 4096 < s.i.toNat + n.val ∧
      exec (.drw x y n) s = .next (raiseFault (.memoryOutOfRange (max s.i.toNat 4096)) s)) := by
  by_cases h : n.val = 0 ∨ s.i.toNat + n.val ≤ 4096
  · exact .inl (exec_drw_of_le x y h)
  · have h0 : 0 < n.val := by omega
    have hgt : 4096 < s.i.toNat + n.val := by omega
    exact .inr ⟨h0, hgt, exec_drw_of_gt x y h0 hgt⟩

theorem exec_skp_cases (x : Reg) (s : State) :
    (∃ k : Fin 16, exec (.skp x) s = .next (s.skipIf (s.key k))) ∨
    (15 < (s.readV x).toNat ∧ exec (.skp x) s = .next (raiseFault (.keyIndexOutOfRange (s.readV x)) s)) := by
  by_cases h : (s.readV x).toNat < 16
  · exact .inl ⟨⟨_, h⟩, exec_skp_of_key rfl⟩
  · have hgt : 15 < (s.readV x).toNat := by omega
    exact .inr ⟨hgt, exec_skp_of_gt hgt⟩

theorem exec_sknp_cases (x : Reg) (s : State) :
    (∃ k : Fin 16, exec (.sknp x) s = .next (s.skipIf (!s.key k))) ∨
    (15 < (s.readV x).toNat ∧ exec (.sknp x) s = .next (raiseFault (.keyIndexOutOfRange (s.readV x)) s)) := by
  by_cases h : (s.readV x).toNat < 16
  · exact .inl ⟨⟨_, h⟩, exec_sknp_of_key rfl⟩
  · have hgt : 15 < (s.readV x).toNat := by omega
    exact .inr ⟨hgt, exec_sknp_of_gt hgt⟩

theorem exec_ldVxK_cases (x : Reg) (s : State) :
    exec (.ldVxK x) s = .next s ∨ ∃ k : Fin 16, exec (.ldVxK x) s = .next (s.writeV x (keyByte k)).advance := by
  cases h : s.lowestPressed with
  | none => exact .inl (exec_ldVxK_of_none x h)
  | some k => exact .inr ⟨k, exec_ldVxK_of_some x h⟩

theorem State.storeAtI_cases (s : State) {bs : List Byte} (h0 : 0 < bs.length) :
    (s.i.toNat + bs.length ≤ 4096 ∧ s.storeAtI bs = .next (s.afterStore bs)) ∨
    (4096 < s.i.toNat + bs.length ∧
      s.storeAtI bs = .next (raiseFault (.memoryOutOfRange (max s.i.toNat 4096)) s)) := by
  by_cases h : s.i.toNat + bs.length ≤ 4096
  · exact .inl ⟨h, State.storeAtI_of_le h⟩
  · have hgt : 4096 < s.i.toNat + bs.length := by omega
    exact .inr ⟨hgt, State.storeAtI_of_gt h0 hgt⟩

theorem exec_ldB_cases (x : Reg) (s : State) :
    (s.i.toNat + 3 ≤ 4096 ∧ exec (.ldB x) s = .next (s.afterStore (bcdDigits (s.readV x)))) ∨
    (4096 < s.i.toNat + 3 ∧ exec (.ldB x) s = .next (raiseFault (.memoryOutOfRange (max s.i.toNat 4096)) s)) :=
  s.storeAtI_cases (bs := bcdDigits (s.readV x)) (by simp)

theorem exec_ldMemVx_cases (x : Reg) (s : State) :
    (s.i.toNat + (x.val + 1) ≤ 4096 ∧ exec (.ldMemVx x) s = .next (s.afterStore (s.regsUpTo x))) ∨
    (4096 < s.i.toNat + (x.val + 1) ∧
      exec (.ldMemVx x) s = .next (raiseFault (.memoryOutOfRange (max s.i.toNat 4096)) s)) := by
  simpa only [State.length_regsUpTo, exec_ldMemVx] using s.storeAtI_cases (bs := s.regsUpTo x) (by simp)

theorem exec_ldVxMem_cases (x : Reg) (s : State) :
    exec (.ldVxMem x) s = .next (s.afterLoad x) ∨
    (4096 ≤ s.i.toNat + x.val ∧
      exec (.ldVxMem x) s = .next (raiseFault (.memoryOutOfRange (max s.i.toNat 4096)) s)) := by
  by_cases h : s.i.toNat + x.val < 4096
  · exact .inl (exec_ldVxMem_of_lt h)
  · have hge : 4096 ≤ s.i.toNat + x.val := by omega
    exact .inr ⟨hge, exec_ldVxMem_of_ge hge⟩

end Sys2Proof.Machine
end

section
/-! PROOFS. The random draw (45_random_timers.md R106) as one counted draw and one register write, its frame, and
O28. -/

namespace Sys2Proof.Machine

open Sys2Proof

theorem OnlyChanges.drawTaken (s : State) : OnlyChanges [.draws] s s.drawTaken := by
  intro p hp
  cases p with
  | draws => simp at hp
  | _ => simp [Part.same]

/-- The state `RND Vx, kk` ends in. -/
def State.afterRnd (s : State) (x : Reg) (kk : Byte) : State := (s.drawTaken.writeV x (s.nextDraw &&& kk)).advance

theorem exec_rnd (x : Reg) (kk : Byte) (s : State) : exec (.rnd x kk) s = .next (s.afterRnd x kk) := rfl

theorem State.afterRnd_readV_self (s : State) (x : Reg) (kk : Byte) :
    (s.afterRnd x kk).readV x = Config.rngDraw s.draws &&& kk :=
  s.drawTaken.writeV_advance_readV_self x _

theorem State.afterRnd_frame (s : State) (x : Reg) (kk : Byte) :
    (s.afterRnd x kk).pc = s.pc + 2 ∧ RegsUnchangedBut [x] s (s.afterRnd x kk) ∧
      OnlyChanges [.v, .pc, .draws] s (s.afterRnd x kk) := by
  obtain ⟨hpc, hregs, hchanges⟩ := s.drawTaken.writeV_advance_frame x (s.nextDraw &&& kk)
  exact ⟨hpc, hregs, ((OnlyChanges.drawTaken s).trans hchanges).mono (by simp)⟩

theorem decode_rndWord {w : Word} {x : Reg} {kk : Byte} (h : w.toNat = 0xC000 + 256 * x.val + kk.toNat) :
    decode w = .instr (.rnd x kk) := by
  obtain rfl := eq_wordXK_of_toNat (op := 0xC#4) h
  simp [decode_of_opC]

/-- Settles O28: the draw is ANDed with `kk` bit by bit, so a bit that `kk` does not have is clear whatever was drawn. -/
theorem rndMasksOneFreshDraw : Obligations.RndMasksOneFreshDraw := by
  refine ⟨fun _ _ _ => decode_rndWord, fun s x kk => ⟨_, exec_rnd x kk s, s.afterRnd_readV_self x kk, rfl,
    fun k hk => ?masked, s.afterRnd_frame x kk⟩⟩
  case masked => rw [State.afterRnd_readV_self, BitVec.getLsbD_and, hk, Bool.and_false]

end Sys2Proof.Machine
end

section
/-! PROOFS. The frame of every instruction (40_cycle.md R77; 10_state.md R17), proved once for all 34, the frame of a
step that it gives, and O42 and O43. -/

namespace Sys2Proof.Machine

open Sys2Proof

/-- From `s` to `t`, only what the rule of `i` names has changed (R77), and only the registers `i` writes (R17). -/
def InstrFrame (i : Instr) (s t : State) : Prop :=
  OnlyChanges (.pc :: .faulted :: changesOf i) s t ∧ ∀ r : Reg, writesReg i r = false → t.readV r = s.readV r

section
variable {i : Instr} {s t : State}

theorem InstrFrame.raiseFault (f : Fault) : InstrFrame i s (raiseFault f s) :=
  ⟨(OnlyChanges.raiseFault f s).mono (by simp), fun _ _ => rfl⟩

/-- An update that leaves the register file alone. -/
theorem InstrFrame.of_changes {cs : List Part} (h : OnlyChanges cs s t) (hv : .v ∉ cs := by decide)
    (hcs : ∀ p ∈ cs, p ∈ .pc :: .faulted :: changesOf i := by simp [changesOf]) : InstrFrame i s t :=
  ⟨h.mono hcs, fun r _ => h .v hv r⟩

/-- An update that writes the registers `rs` among others. -/
theorem InstrFrame.of_regs {rs : List Reg} {cs : List Part} (h : RegsUnchangedBut rs s t ∧ OnlyChanges cs s t)
    (hrs : ∀ r ∈ rs, writesReg i r = true := by simp [writesReg])
    (hcs : ∀ p ∈ cs, p ∈ .pc :: .faulted :: changesOf i := by simp [changesOf]) : InstrFrame i s t := by
  obtain ⟨hregs, hchanges⟩ := h
  refine ⟨hchanges.mono hcs, fun r hr => hregs r fun hmem => ?_⟩
  rw [hrs r hmem] at hr
  cases hr

end

theorem InstrFrame.afterLoad (s : State) (x : Reg) : InstrFrame (.ldVxMem x) s (s.afterLoad x) := by
  refine ⟨(s.afterLoad_frame x).2.mono (by simp [changesOf]), fun r hr => ?_⟩
  rw [State.afterLoad_readV, if_neg (of_decide_eq_false hr)]

/-- Every instruction answers a next state at every state, and it keeps to its frame. -/
theorem exec_frame (i : Instr) (s : State) : ∃ t, exec i s = .next t ∧ InstrFrame i s t := by
  cases i with
  | cls => exact ⟨_, exec_cls s, .of_changes ((OnlyChanges.writeDisplay s _).trans (.advance _))⟩
  | ret =>
    rcases exec_ret_cases s with ⟨n, -, h⟩ | ⟨-, h⟩
    · exact ⟨_, h, .of_changes (.afterRet s n)⟩
    · exact ⟨_, h, .raiseFault _⟩
  | call nnn =>
    rcases exec_call_cases nnn s with ⟨n, -, h⟩ | ⟨-, h⟩
    · exact ⟨_, h, .of_changes (.afterCall s nnn n)⟩
    · exact ⟨_, h, .raiseFault _⟩
  | jp | jpV0 => exact ⟨_, rfl, .of_changes (.writePc s _)⟩
  | seImm | sneImm | seReg | sneReg => exact ⟨_, rfl, .of_changes (.skipIf s _)⟩
  | ldImm x | addImm x | ldReg x | orReg x | andReg x | xorReg x | ldVxDt x =>
    exact ⟨_, rfl, .of_regs (s.writeV_advance_frame x _).2⟩
  | addReg x | sub x | subn x => exact ⟨_, rfl, .of_regs (s.writeResultThenFlag_advance_frame x _ _).2⟩
  | shr x | shl x => exact ⟨_, rfl, .of_regs (s.writeShift_advance_frame _ _ _ x).2⟩
  | ldI | addI | ldF => exact ⟨_, rfl, .of_changes (s.writeI_advance_frame _).2⟩
  | rnd x kk => exact ⟨_, rfl, .of_regs (s.afterRnd_frame x kk).2⟩
  | ldDtVx => exact ⟨_, rfl, .of_changes (s.writeDt_advance_frame _).2⟩
  | ldStVx => exact ⟨_, rfl, .of_changes (s.writeSt_advance_frame _).2⟩
  | drw x y n =>
    rcases exec_drw_cases x y n s with h | ⟨-, -, h⟩
    · exact ⟨_, h, .of_regs ⟨.afterDrw s x y n.val, .afterDrw s x y n.val⟩⟩
    · exact ⟨_, h, .raiseFault _⟩
  | skp x =>
    rcases exec_skp_cases x s with ⟨k, h⟩ | ⟨-, h⟩
    · exact ⟨_, h, .of_changes (.skipIf s _)⟩
    · exact ⟨_, h, .raiseFault _⟩
  | sknp x =>
    rcases exec_sknp_cases x s with ⟨k, h⟩ | ⟨-, h⟩
    · exact ⟨_, h, .of_changes (.skipIf s _)⟩
    · exact ⟨_, h, .raiseFault _⟩
  | ldVxK x =>
    rcases exec_ldVxK_cases x s with h | ⟨k, h⟩
    · exact ⟨_, h, .of_changes (.refl [] s)⟩
    · exact ⟨_, h, .of_regs (s.writeV_advance_frame x _).2⟩
  | ldB x =>
    rcases exec_ldB_cases x s with ⟨-, h⟩ | ⟨-, h⟩
    · exact ⟨_, h, .of_changes (s.afterStore_frame _).2⟩
    · exact ⟨_, h, .raiseFault _⟩
  | ldMemVx x =>
    rcases exec_ldMemVx_cases x s with ⟨-, h⟩ | ⟨-, h⟩
    · exact ⟨_, h, .of_changes (s.afterStore_frame _).2⟩
    · exact ⟨_, h, .raiseFault _⟩
  | ldVxMem x =>
    rcases exec_ldVxMem_cases x s with h | ⟨-, h⟩
    · exact ⟨_, h, .afterLoad s x⟩
    · exact ⟨_, h, .raiseFault _⟩

theorem InstrFrame.of_exec {i : Instr} {s t : State} (h : exec i s = .next t) : InstrFrame i s t := by
  obtain ⟨u, hu, hframe⟩ := exec_frame i s
  cases hu.symm.trans h
  exact hframe

/-- Settles O42: each outcome of a step but the refusal of a faulted state is a next state. -/
theorem everyInstructionRuns : Obligations.EveryInstructionRuns := by
  have hexec (i : Instr) (s : State) : ∃ t, exec i s = .next t := (exec_frame i s).imp fun _ h => h.1
  refine ⟨hexec, fun s => ⟨fun ⟨t, ht⟩ => (step_next_cases ht).1, fun hn => ?_⟩⟩
  rcases step_cases s with ⟨f, hf, -⟩ | ⟨-, ⟨f, -, h⟩ | ⟨w, -, -, h⟩ | ⟨w, i, -, -, h⟩⟩
  · cases hn.symm.trans hf
  · exact ⟨_, h⟩
  · exact ⟨_, h⟩
  · exact h ▸ hexec i s

/-! ### The frame of a step -/

section
variable {s t : State}

theorem exec_of_step {i : Instr} (h : step s = .next t) (hp : s.pc.toNat + 1 < 4096)
    (hd : decode s.wordAtPc = .instr i) : exec i s = .next t :=
  (step_eq_exec (step_next_cases h).1 hp hd).symm.trans h

/-- A piece that a step changes, besides `pc` and the faulted status, is named by the instruction the step ran. -/
theorem step_changes_named {p : Part} (hpc : p ≠ .pc) (hf : p ≠ .faulted) (h : step s = .next t)
    (hchanged : ¬p.same s t) : ∃ i, decode s.wordAtPc = .instr i ∧ p ∈ changesOf i := by
  obtain ⟨-, ⟨f, rfl⟩ | ⟨i, -, hd, he⟩⟩ := step_next_cases h
  · exact absurd (OnlyChanges.raiseFault f s p (by simp [hf])) hchanged
  · refine ⟨i, hd, Classical.byContradiction fun hnot => hchanged ((InstrFrame.of_exec he).1 p ?_)⟩
    simp [hpc, hf, hnot]

theorem keys_not_mem_changesOf (i : Instr) : .keys ∉ changesOf i := by
  cases i <;> simp [changesOf]

theorem dt_mem_changesOf_iff {i : Instr} : .dt ∈ changesOf i ↔ ∃ x, i = .ldDtVx x := by
  cases i <;> simp [changesOf]

theorem st_mem_changesOf_iff {i : Instr} : .st ∈ changesOf i ↔ ∃ x, i = .ldStVx x := by
  cases i <;> simp [changesOf]

theorem step_keys (h : step s = .next t) : t.keys = s.keys := by
  have hsame : Part.keys.same s t := Classical.byContradiction fun hc => by
    obtain ⟨i, -, hi⟩ := step_changes_named (by decide) (by decide) h hc
    exact keys_not_mem_changesOf i hi
  exact Vector.ext fun k hk => hsame ⟨k, hk⟩

theorem step_dt_changed (h : step s = .next t) (hne : t.dt ≠ s.dt) :
    ∃ x, decode s.wordAtPc = .instr (.ldDtVx x) := by
  obtain ⟨i, hd, hi⟩ := step_changes_named (p := .dt) (by decide) (by decide) h hne
  obtain ⟨x, rfl⟩ := dt_mem_changesOf_iff.mp hi
  exact ⟨x, hd⟩

theorem step_st_changed (h : step s = .next t) (hne : t.st ≠ s.st) :
    ∃ x, decode s.wordAtPc = .instr (.ldStVx x) := by
  obtain ⟨i, hd, hi⟩ := step_changes_named (p := .st) (by decide) (by decide) h hne
  obtain ⟨x, rfl⟩ := st_mem_changesOf_iff.mp hi
  exact ⟨x, hd⟩

/-- A store at `I` changes no byte outside the ones it stores, whether it completes or raises. -/
theorem State.storeAtI_read_outside {bs : List Byte} (h0 : 0 < bs.length) (h : s.storeAtI bs = .next t) {a : Nat}
    (ha : a < s.i.toNat ∨ s.i.toNat + bs.length ≤ a) : t.mem.read a = s.mem.read a := by
  rcases s.storeAtI_cases h0 with ⟨-, hs⟩ | ⟨-, hs⟩ <;> cases hs.symm.trans h
  · exact State.afterStore_read_outside ha
  · rfl

theorem exec_call_keeps_slot {nnn : Addr12} (h : exec (.call nnn) s = .next t) {j : Fin 16}
    (hj : j.val ≠ s.sp.val) : t.stack[j.val] = s.stack[j.val] := by
  rcases exec_call_cases nnn s with ⟨n, hn, hs⟩ | ⟨-, hs⟩ <;> cases hs.symm.trans h
  · rw [State.afterCall_stack, if_neg (hn ▸ hj)]
  · rfl

theorem exec_drw_keeps_pixel {x y : Reg} {n : Fin 16} (h : exec (.drw x y n) s = .next t) {px : Fin 64}
    {py : Fin 32} (hc : ¬SpriteCovers s x y n.val px py) : t.display.pixel px py = s.display.pixel px py := by
  rcases exec_drw_cases x y n s with hs | ⟨-, -, hs⟩ <;> cases hs.symm.trans h
  · exact ((s.drawSprite_toggles x y (by omega)).1 px py).2 hc
  · rfl

end

/-- Settles O43: a step raises or runs one instruction, whose frame says which pieces it changes; the stores, `CALL` and
`DRW` change within their piece only what they write. -/
theorem stepChangesOnlyWhatItsInstructionNames : Obligations.StepChangesOnlyWhatItsInstructionNames :=
  ⟨fun _ _ _ h hp hd => InstrFrame.of_exec (exec_of_step h hp hd), fun _ _ => step_keys, fun _ _ => step_dt_changed,
    fun _ _ => step_st_changed,
    fun s _ x h hp hd => ⟨length_bcdDigits _, fun _ =>
      State.storeAtI_read_outside (by simp) ((exec_ldB x s).symm.trans (exec_of_step h hp hd))⟩,
    fun s _ x h hp hd => ⟨s.length_regsUpTo x, fun _ =>
      State.storeAtI_read_outside (by simp) ((exec_ldMemVx x s).symm.trans (exec_of_step h hp hd))⟩,
    fun _ _ _ h hp hd _ => exec_call_keeps_slot (exec_of_step h hp hd),
    fun _ _ _ _ _ h hp hd _ _ => exec_drw_keeps_pixel (exec_of_step h hp hd)⟩

end Sys2Proof.Machine
end

section
/-! PROOFS. The driver's operations (60_exceptions.md R131): what `load`, `step` and the key operations did when they
answer a state, `load` on both sides of its bound (70_reset_and_hazards.md R140, R141); and O41 and O54. -/

namespace Sys2Proof.Machine

open Sys2Proof

/-! ### `load` -/

theorem hostLoad_of_faulted {s : State} {f : Fault} (h : s.faulted = some f) (bytes : List Byte) :
    hostLoad bytes s = .refused (.faultedStatus f) := by
  simp [hostLoad, h]

theorem hostLoad_of_fits {s : State} {bytes : List Byte} (hn : s.faulted = none) (h : wfImage bytes = true) :
    hostLoad bytes s = .next (s.loadImage bytes, .ok) := by
  have hlen : bytes.length ≤ 3584 := of_decide_eq_true h
  have hfits : ¬origin + bytes.length > memSize := by
    unfold origin memSize
    omega
  simp [hostLoad, hn, hfits]

theorem hostLoad_of_tooLarge {s : State} {bytes : List Byte} (hn : s.faulted = none) (h : wfImage bytes = false) :
    hostLoad bytes s = .next (raiseFault (.loadTooLarge bytes.length) s, .fault 5 bytes.length) := by
  have hlen : ¬bytes.length ≤ 3584 := of_decide_eq_false h
  have hover : origin + bytes.length > memSize := by
    unfold origin memSize
    omega
  simp [hostLoad, hn, hover]

/-- A `load` that answers a state copied an image that fits, or raised. -/
theorem hostLoad_next_cases {s t : State} {bytes : List Byte} {r : Reply} (h : hostLoad bytes s = .next (t, r)) :
    s.faulted = none ∧
      ((wfImage bytes = true ∧ t = s.loadImage bytes) ∨ t = raiseFault (.loadTooLarge bytes.length) s) := by
  cases hs : s.faulted with
  | some f => cases (hostLoad_of_faulted hs bytes).symm.trans h
  | none =>
    refine ⟨rfl, ?_⟩
    cases hw : wfImage bytes with
    | true =>
      cases (hostLoad_of_fits hs hw).symm.trans h
      exact .inl ⟨rfl, rfl⟩
    | false =>
      cases (hostLoad_of_tooLarge hs hw).symm.trans h
      exact .inr rfl

/-- Settles O54: the image's bound and the faulted status decide which of its three answers `load` gives. -/
theorem loadCopiesTheImageOrFaults : Obligations.LoadCopiesTheImageOrFaults :=
  ⟨fun _ s bytes hn hw => ⟨_, hostLoad_of_fits hn hw, fun k => s.mem.getElem?_eq_read_writeBytes origin k bytes,
      fun a => s.mem.read_writeBytes_outside origin a bytes, .writeMem s _⟩,
    fun _ _ _ => hostLoad_of_tooLarge, fun _ _ bytes _ h => hostLoad_of_faulted h bytes⟩

/-! ### `step` and the key operations -/

theorem hostStep_of_faulted {s : State} {f : Fault} (h : s.faulted = some f) :
    hostStep s = .refused (.faultedStatus f) := by
  simp [hostStep, step_of_faulted h]

/-- No step answers `Outcome.fault` (log entry 1). -/
theorem step_ne_fault (s : State) (f : Fault) : step s ≠ .fault f := fun h => by
  cases hs : s.faulted with
  | some g => cases (step_of_faulted hs).symm.trans h
  | none =>
    obtain ⟨t, ht⟩ := (everyInstructionRuns.2 s).mpr hs
    cases ht.symm.trans h

theorem step_of_hostStep {s t : State} {r : Reply} (h : hostStep s = .next (t, r)) : step s = .next t := by
  cases hs : step s with
  | next u =>
    cases (hostStep_of_next hs).symm.trans h
    rfl
  | fault f => exact absurd hs (step_ne_fault s f)
  | refused q => simp [hostStep, hs] at h

theorem hostKey_next_cases {k : Nat} {pressed : Bool} {s t : State} {r : Reply}
    (h : hostKey k pressed s = .next (t, r)) : ∃ j : Fin 16, t = s.setKey j pressed := by
  unfold hostKey at h
  split_ifs at h with hk
  cases h
  exact ⟨⟨k, hk⟩, rfl⟩

theorem hostOp_readDisplay (font : Config.Font) (s : State) :
    hostOp font .readDisplay s = .next (s, .snapshot s.display.snapshot) := rfl

theorem hostOp_tickTimers (font : Config.Font) (s : State) :
    hostOp font .tickTimers s = .next (s.tickTimers, .nothing) := rfl

/-- No operation but `construct` writes over a recorded fault. -/
theorem hostOp_keeps_fault {font : Config.Font} {o : HostOp} {s t : State} {r : Reply} {f : Fault}
    (hf : s.faulted = some f) (ho : o ≠ .construct) (h : hostOp font o s = .next (t, r)) : t.faulted = some f := by
  cases o with
  | construct => exact absurd rfl ho
  | load bytes => cases (hostLoad_of_faulted hf bytes).symm.trans h
  | step => cases (hostStep_of_faulted hf).symm.trans h
  | pressKey k | releaseKey k =>
    obtain ⟨j, rfl⟩ := hostKey_next_cases h
    exact hf
  | tickTimers | readDisplay =>
    cases h
    exact hf

/-- Settles O41: `step` and `load` check the faulted status first, and the other operations do not read it. -/
theorem aFaultIsSticky : Obligations.AFaultIsSticky :=
  ⟨fun font s _ hf => ⟨hostStep_of_faulted hf, hostLoad_of_faulted hf, ⟨_, hostOp_tickTimers font s⟩,
      fun k => ⟨⟨_, hostKey_of_fin k true s⟩, ⟨_, hostKey_of_fin k false s⟩⟩, hostOp_readDisplay font s,
      ⟨_, hostOp_construct font s, rfl⟩⟩,
    fun _ _ _ _ _ _ => hostOp_keeps_fault⟩

end Sys2Proof.Machine
end

section
/-! PROOFS. The timers' ticks, one and many (60_exceptions.md R124), the display snapshot (R129), the default font; and
O53, O55, O56 and O58. -/

namespace Sys2Proof.Machine

open Sys2Proof

theorem tickTimer_toNat (b : Byte) : (tickTimer b).toNat = b.toNat - 1 := by
  have hb := b.isLt
  unfold tickTimer
  split
  · rw [BitVec.toNat_sub]
    simp only [BitVec.toNat_ofNat]
    omega
  · omega

theorem OnlyChanges.tickTimers (s : State) : OnlyChanges [.dt, .st] s s.tickTimers :=
  (OnlyChanges.writeDt s (tickTimer s.dt)).trans (.writeSt _ (tickTimer s.st))

/-- Settles O55: each timer by itself is one tick down. -/
theorem tickTimersCountsDownToZero : Obligations.TickTimersCountsDownToZero := fun font s =>
  ⟨_, hostOp_tickTimers font s, tickTimer_toNat s.dt, tickTimer_toNat s.st, .tickTimers s⟩

theorem runHost_cons_of_next {font : Config.Font} {o : HostOp} {os : List HostOp} {s t u : State} {r : Reply}
    {rs : List Reply} (ho : hostOp font o s = .next (t, r)) (hos : runHost font os t = .next (u, rs)) :
    runHost font (o :: os) s = .next (u, r :: rs) := by
  simp [runHost, ho, hos]

/-- Settles O56, by induction on the number of ticks: the first tick, and then the others from the state it leaves. -/
theorem ticksAddUp : Obligations.TicksAddUp := by
  intro font n
  induction n with
  | zero => exact fun s => ⟨s, [], rfl, rfl, rfl, .refl _ s⟩
  | succ n ih =>
    intro s
    obtain ⟨t, rs, hrun, hdt, hst, hframe⟩ := ih s.tickTimers
    refine ⟨t, _, runHost_cons_of_next (hostOp_tickTimers font s) hrun, ?_, ?_,
      ((OnlyChanges.tickTimers s).trans hframe).mono (by simp)⟩
    · rw [hdt, State.tickTimers_dt, tickTimer_toNat]
      omega
    · rw [hst, State.tickTimers_st, tickTimer_toNat]
      omega

theorem Display.snapshot_getElem? (d : Display) (x : Fin 64) (y : Fin 32) :
    d.snapshot[y.val * 64 + x.val]? = some (d.pixel x y) := by
  have hlt : y.val * 64 + x.val < 2048 := by omega
  have hx : (y.val * 64 + x.val) % 64 = x.val := by omega
  have hy : (y.val * 64 + x.val) / 64 = y.val := by omega
  rw [Vector.getElem?_eq_getElem hlt, Display.snapshot, Vector.getElem_ofFn]
  simp only [hx, hy]

/-- Settles O58: an index of the snapshot is a row and a column by division by the row's 64 pixels. -/
theorem readDisplayIsARowMajorSnapshot : Obligations.ReadDisplayIsARowMajorSnapshot := fun font s =>
  ⟨_, hostOp_readDisplay font s, s.display.snapshot_getElem?⟩

/-- Settles O53: a fresh machine with the default font lists no byte, and each unlisted byte reads as that font's. -/
theorem resetHoldsTheDefaultFont : Obligations.ResetHoldsTheDefaultFont :=
  ⟨construct_conventionalFont.symm, by decide⟩

end Sys2Proof.Machine
end

section
/-! PROOFS. Schedules (60_exceptions.md R132): no operation answers `Outcome.fault`, a schedule in two parts is the one
after the other; and O59. -/

namespace Sys2Proof.Machine

open Sys2Proof

theorem hostKey_ne_fault (k : Nat) (pressed : Bool) (s : State) (f : Fault) : hostKey k pressed s ≠ .fault f := by
  intro h
  cases hk : wfKeyId k with
  | true => cases (hostKey_of_fin ⟨k, of_decide_eq_true hk⟩ pressed s).symm.trans h
  | false => cases (hostKey_of_not_wfKeyId hk pressed s).symm.trans h

theorem hostOp_ne_fault (font : Config.Font) (o : HostOp) (s : State) (f : Fault) : hostOp font o s ≠ .fault f := by
  intro h
  cases o with
  | construct | tickTimers | readDisplay => cases h
  | load bytes =>
    cases hs : s.faulted with
    | some g => cases (hostLoad_of_faulted hs bytes).symm.trans h
    | none =>
      cases hw : wfImage bytes with
      | true => cases (hostLoad_of_fits hs hw).symm.trans h
      | false => cases (hostLoad_of_tooLarge hs hw).symm.trans h
  | step =>
    cases hs : step s with
    | next t => cases (hostStep_of_next hs).symm.trans h
    | fault g => exact step_ne_fault s g hs
    | refused q => simp [hostOp, hostStep, hs] at h
  | pressKey k | releaseKey k => exact hostKey_ne_fault k _ s f h

/-- Going on with the schedule `ps` after a schedule that answered the given outcome. -/
def continueWith (font : Config.Font) (ps : List HostOp) :
    Host.Outcome (State × List Reply) Fault Refusal → Host.Outcome (State × List Reply) Fault Refusal
  | .next (t, rs) =>
    match runHost font ps t with
    | .next (u, qs) => .next (u, rs ++ qs)
    | .fault f => .fault f
    | .refused q => .refused q
  | .fault f => .fault f
  | .refused q => .refused q

theorem runHost_append (font : Config.Font) (os ps : List HostOp) (s : State) :
    runHost font (os ++ ps) s = continueWith font ps (runHost font os s) := by
  induction os generalizing s with
  | nil => cases h : runHost font ps s <;> simp [runHost, continueWith, h]
  | cons o os ih =>
    cases ho : hostOp font o s with
    | fault f => simp [runHost, ho, continueWith]
    | refused q => simp [runHost, ho, continueWith]
    | next tr =>
      obtain ⟨t, r⟩ := tr
      simp only [List.cons_append, runHost, ho, ih t]
      cases hos : runHost font os t with
      | fault f => rfl
      | refused q => rfl
      | next urs => cases hps : runHost font ps urs.1 <;> simp [continueWith, hps]

/-- Settles O59: the schedule of one operation by what the operation answers, and a schedule in two parts by what its
first part answers. -/
theorem schedulesRunInIssueOrder : Obligations.SchedulesRunInIssueOrder := by
  refine ⟨fun _ _ => rfl, fun font o s => ⟨fun t r h => runHost_cons_of_next h rfl, fun q h => ?refusedOne,
    hostOp_ne_fault font o s⟩, fun font os ps s => ⟨fun t u rs qs h h' => ?both, fun q h => ?refusedFirst,
    fun t rs q h h' => ?refusedSecond⟩⟩
  case refusedOne => simp [runHost, h]
  case both => simp [runHost_append, h, continueWith, h']
  case refusedFirst => simp [runHost_append, h, continueWith]
  case refusedSecond => simp [runHost_append, h, continueWith, h']

end Sys2Proof.Machine
end

section
/-! PROOFS. The canonical memory and the bounded `pc` (20_memory.md R49; 10_state.md R20) as invariants: of an
instruction, of a step, of each of the driver's operations and of every reachable state; and O48, O49, O50, O51 and
O60. -/

namespace Sys2Proof.Machine

open Sys2Proof

/-! ### Canonical memory -/

/-- A checked access ends in the state it goes on with or in its fault, so a property of both holds of its end. -/
theorem commit_ofExcept_of {α : Type} {P : State → Prop} {s : State} (e : Except Fault α) {k : α → State}
    (hok : ∀ a, e = .ok a → P (k a)) (hraise : ∀ f, P (raiseFault f s)) :
    ∃ t, commit s (.ofExcept e fun a => .done (k a)) = .next t ∧ P t := by
  cases e with
  | ok a => exact ⟨k a, rfl, hok a rfl⟩
  | error f => exact ⟨raiseFault f s, rfl, hraise f⟩

@[simp] theorem State.writeShift_mem (s : State) (o : ShiftFlagOrder) (x : Reg) (shift : Byte → Byte) (flag : Byte) :
    (s.writeShift o x shift flag).mem = s.mem := by
  unfold State.writeShift
  split <;> rfl

/-- Only the two stores write memory, each through one checked write. -/
theorem exec_keeps_canonical {s : State} (hm : MemoryCanonical s) (i : Instr) :
    ∃ t, exec i s = .next t ∧ MemoryCanonical t := by
  cases i with
  | ldB | ldMemVx => exact commit_ofExcept_of _ (fun _ hw => memWrite_wf hw hm) fun _ => hm
  | drw | skp | sknp | ldVxMem => exact commit_ofExcept_of _ (fun _ _ => hm) fun _ => hm
  | ret =>
    rcases exec_ret_cases s with ⟨n, -, h⟩ | ⟨-, h⟩ <;> exact ⟨_, h, hm⟩
  | call nnn =>
    rcases exec_call_cases nnn s with ⟨n, -, h⟩ | ⟨-, h⟩ <;> exact ⟨_, h, hm⟩
  | ldVxK x =>
    rcases exec_ldVxK_cases x s with h | ⟨k, h⟩ <;> exact ⟨_, h, hm⟩
  | shr | shl => exact ⟨_, rfl, by simpa [MemoryCanonical] using hm⟩
  | cls | jp | seImm | sneImm | seReg | sneReg | ldImm | addImm | ldReg | orReg | andReg | xorReg | addReg | sub | subn
  | ldI | jpV0 | rnd | ldVxDt | ldDtVx | ldStVx | addI | ldF => exact ⟨_, rfl, hm⟩

/-- Settles O48: a raise changes no memory, and no instruction leaves the canonical form. -/
theorem stepKeepsMemoryCanonical : Obligations.StepKeepsMemoryCanonical := by
  intro s t hm h
  obtain ⟨-, ⟨f, rfl⟩ | ⟨i, -, -, he⟩⟩ := step_next_cases h
  · exact hm
  · obtain ⟨u, hu, hcanonical⟩ := exec_keeps_canonical hm i
    cases hu.symm.trans he
    exact hcanonical

/-! ### The bounded `pc` -/

theorem Word.toNat_add_ofNat_le (w : Word) (n : Nat) : (w + BitVec.ofNat 16 n).toNat ≤ w.toNat + n := by
  rw [BitVec.toNat_add, BitVec.toNat_ofNat]
  omega

theorem State.skipIf_pc_le (s : State) (c : Bool) : (s.skipIf c).pc.toNat ≤ s.pc.toNat + 4 := by
  have h4 := Word.toNat_add_ofNat_le s.pc 4
  have h2 := Word.toNat_add_ofNat_le s.pc 2
  cases c
  · exact h2.trans (by omega)
  · exact h4

/-- An instruction that can be fetched and neither calls nor returns leaves `pc` at most 0x10FE, the furthest that
`JP V0` reaches. -/
theorem exec_pc_le {i : Instr} {s : State} (hp : s.pc.toNat + 1 < 4096) (hret : i ≠ .ret)
    (hcall : ∀ nnn, i ≠ .call nnn) : ∃ t, exec i s = .next t ∧ t.pc.toNat ≤ 0x10FE := by
  have hskip (c : Bool) : (s.skipIf c).pc.toNat ≤ 0x10FE := (s.skipIf_pc_le c).trans (by omega)
  by_cases hset : setsPc i = true
  · cases i with
    | ret => exact absurd rfl hret
    | call nnn => exact absurd rfl (hcall nnn)
    | jp nnn =>
      have hn := nnn.isLt
      exact ⟨_, exec_jp nnn s, (zextAddr_toNat nnn).trans_le (by omega)⟩
    | jpV0 nnn =>
      obtain ⟨t, h, -, hle, -⟩ := jpV0AddsExactly.2 s nnn
      exact ⟨t, h, hle⟩
    | seImm | sneImm | seReg | sneReg => exact ⟨_, rfl, hskip _⟩
    | skp | sknp => exact commit_ofExcept_of _ (fun _ _ => hskip _) fun _ => by rw [raiseFault_pc]; omega
    | _ => cases hset
  · by_cases hk : ∃ x, i = .ldVxK x
    · obtain ⟨x, rfl⟩ := hk
      rcases exec_ldVxK_cases x s with h | ⟨k, h⟩
      · exact ⟨_, h, by omega⟩
      · exact ⟨_, h, (Word.toNat_add_ofNat_le s.pc 2).trans (by omega)⟩
    · obtain ⟨t, h, hpc | ⟨f, rfl⟩⟩ :=
        exec_advances_or_raises (Bool.eq_false_of_not_eq_true hset) (not_exists.mp hk) s
      · exact ⟨t, h, hpc ▸ (Word.toNat_add_ofNat_le s.pc 2).trans (by omega)⟩
      · exact ⟨_, h, by rw [raiseFault_pc]; omega⟩

theorem stack_not_mem_changesOf {i : Instr} (hret : i ≠ .ret) (hcall : ∀ nnn, i ≠ .call nnn) :
    .sp ∉ changesOf i ∧ .stack ∉ changesOf i := by
  cases i with
  | ret => exact absurd rfl hret
  | call nnn => exact absurd rfl (hcall nnn)
  | _ => simp [changesOf]

/-- `CALL` pushes the address it was fetched from; `RET` takes such an address for `pc`; every other instruction leaves
the stack alone. -/
theorem exec_keeps_pcBounded {i : Instr} {s t : State} (hb : PcBounded s) (hp : s.pc.toNat + 1 < 4096)
    (h : exec i s = .next t) : PcBounded t := by
  obtain ⟨hpc, hstack⟩ := hb
  by_cases hret : i = .ret
  · subst hret
    rcases exec_ret_cases s with ⟨n, hn, hr⟩ | ⟨-, hr⟩ <;> cases hr.symm.trans h
    · exact ⟨(hstack n (by omega)).trans (by decide), fun j hj => hstack j (hn ▸ Nat.lt_succ_of_lt hj)⟩
    · exact ⟨hpc, hstack⟩
  · by_cases hcall : ∃ nnn, i = .call nnn
    · obtain ⟨nnn, rfl⟩ := hcall
      rcases exec_call_cases nnn s with ⟨n, hn, hc⟩ | ⟨-, hc⟩ <;> cases hc.symm.trans h
      · have hnnn := nnn.isLt
        refine ⟨(zextAddr_toNat nnn).trans_le (by omega), fun j hj => ?_⟩
        rw [State.afterCall_stack]
        split
        case isTrue => omega
        case isFalse hne => exact hstack j (by have : j.val < n.val + 1 := hj; omega)
      · exact ⟨hpc, hstack⟩
    · obtain ⟨u, hu, hle⟩ := exec_pc_le hp hret (not_exists.mp hcall)
      cases hu.symm.trans h
      obtain ⟨hsp, hst⟩ := stack_not_mem_changesOf hret (not_exists.mp hcall)
      have hframe := (InstrFrame.of_exec h).1
      have hspEq : t.sp = s.sp := hframe .sp (by simp [hsp])
      refine ⟨hle, fun j hj => ?_⟩
      rw [hframe .stack (by simp [hst]) j]
      exact hstack j (hspEq ▸ hj)

/-- Settles O49: a raise changes neither `pc` nor the stack, and an instruction that a step runs was fetched from at
most 0xFFE. -/
theorem stepKeepsPcBounded : Obligations.StepKeepsPcBounded := by
  intro s t hb h
  obtain ⟨-, ⟨f, rfl⟩ | ⟨i, hp, -, he⟩⟩ := step_next_cases h
  · exact hb
  · exact exec_keeps_pcBounded hb hp he

/-! ### The driver's operations and the reachable states -/

/-- No slot is in use on a fresh machine, so its bound says nothing of one. -/
theorem construct_invariants (font : Config.Font) :
    MemoryCanonical (State.construct font) ∧ PcBounded (State.construct font) :=
  ⟨Memory.ofFont_wf font, show (0x0200#16).toNat ≤ 0x10FE by decide, fun _ hj => absurd hj (Nat.not_lt_zero _)⟩

/-- Settles O50: `State.reset` is the fresh machine of the default font. -/
theorem freshMachinesMeetTheInvariants : Obligations.FreshMachinesMeetTheInvariants :=
  ⟨construct_conventionalFont ▸ construct_invariants conventionalFont, construct_invariants⟩

/-- Settles O60, operation by operation: `construct` starts afresh, `load` writes the image inside memory or raises,
`step` keeps both invariants, and the others touch neither memory, `pc` nor the stack. -/
theorem everyHostOperationKeepsTheInvariants : Obligations.EveryHostOperationKeepsTheInvariants := by
  intro font o s t r hm hb h
  cases o with
  | construct =>
    cases h
    exact construct_invariants font
  | load bytes =>
    obtain ⟨-, ⟨hw, rfl⟩ | rfl⟩ := hostLoad_next_cases h
    · have hlen : bytes.length ≤ 3584 := of_decide_eq_true hw
      exact ⟨Memory.writeBytes_wf (.inr (by unfold origin; omega)) hm, hb⟩
    · exact ⟨hm, hb⟩
  | step =>
    have hs := step_of_hostStep h
    exact ⟨stepKeepsMemoryCanonical s t hm hs, stepKeepsPcBounded s t hb hs⟩
  | pressKey k | releaseKey k =>
    obtain ⟨j, rfl⟩ := hostKey_next_cases h
    exact ⟨hm, hb⟩
  | tickTimers | readDisplay =>
    cases h
    exact ⟨hm, hb⟩

/-- Settles O51, by induction on the operations that reach the state. -/
theorem reachableStatesMeetTheInvariants : Obligations.ReachableStatesMeetTheInvariants := by
  intro font s h
  induction h with
  | constructed k => exact construct_invariants font
  | operated o _ ho ih =>
    obtain ⟨hm, hb⟩ := ih
    exact everyHostOperationKeepsTheInvariants font o _ _ _ hm hb ho

end Sys2Proof.Machine
end

section
/-! PROOFS. The causes of the faults a step raises (60_exceptions.md R117, R120): which instruction raises which fault,
and at which states; and O40. -/

namespace Sys2Proof.Machine

open Sys2Proof

/-- The faults an instruction raises at a state: the rows of R117 that name an instruction. -/
inductive RaisedBy (s : State) : Instr → Fault → Prop
  | call (nnn : Addr12) : s.sp.val = 16 → RaisedBy s (.call nnn) (.stackOverflow s.pc)
  | ret : s.sp.val = 0 → RaisedBy s .ret (.stackUnderflow s.pc)
  | drw (x y : Reg) (n : Fin 16) : 0 < n.val → 4096 < s.i.toNat + n.val →
      RaisedBy s (.drw x y n) (.memoryOutOfRange (max s.i.toNat 4096))
  | ldB (x : Reg) : 4096 ≤ s.i.toNat + 2 → RaisedBy s (.ldB x) (.memoryOutOfRange (max s.i.toNat 4096))
  | ldMemVx (x : Reg) : 4096 ≤ s.i.toNat + x.val → RaisedBy s (.ldMemVx x) (.memoryOutOfRange (max s.i.toNat 4096))
  | ldVxMem (x : Reg) : 4096 ≤ s.i.toNat + x.val → RaisedBy s (.ldVxMem x) (.memoryOutOfRange (max s.i.toNat 4096))
  | skp (x : Reg) : 15 < (s.readV x).toNat → RaisedBy s (.skp x) (.keyIndexOutOfRange (s.readV x))
  | sknp (x : Reg) : 15 < (s.readV x).toNat → RaisedBy s (.sknp x) (.keyIndexOutOfRange (s.readV x))

/-- An instruction keeps the faulted status, or it raises a fault for its listed cause. -/
theorem exec_keepsFaulted_or_raisedBy (i : Instr) (s : State) :
    ∃ t, exec i s = .next t ∧ (t.faulted = s.faulted ∨ ∃ f, t = raiseFault f s ∧ RaisedBy s i f) := by
  cases i with
  | call nnn =>
    rcases exec_call_cases nnn s with ⟨n, -, h⟩ | ⟨hfull, h⟩
    · exact ⟨_, h, .inl rfl⟩
    · exact ⟨_, h, .inr ⟨_, rfl, .call nnn hfull⟩⟩
  | ret =>
    rcases exec_ret_cases s with ⟨n, -, h⟩ | ⟨hempty, h⟩
    · exact ⟨_, h, .inl rfl⟩
    · exact ⟨_, h, .inr ⟨_, rfl, .ret hempty⟩⟩
  | drw x y n =>
    rcases exec_drw_cases x y n s with h | ⟨h0, hgt, h⟩
    · exact ⟨_, h, .inl rfl⟩
    · exact ⟨_, h, .inr ⟨_, rfl, .drw x y n h0 hgt⟩⟩
  | ldB x =>
    rcases exec_ldB_cases x s with ⟨-, h⟩ | ⟨hgt, h⟩
    · exact ⟨_, h, .inl rfl⟩
    · exact ⟨_, h, .inr ⟨_, rfl, .ldB x (Nat.le_of_lt_succ hgt)⟩⟩
  | ldMemVx x =>
    rcases exec_ldMemVx_cases x s with ⟨-, h⟩ | ⟨hgt, h⟩
    · exact ⟨_, h, .inl rfl⟩
    · exact ⟨_, h, .inr ⟨_, rfl, .ldMemVx x (Nat.le_of_lt_succ hgt)⟩⟩
  | ldVxMem x =>
    rcases exec_ldVxMem_cases x s with h | ⟨hge, h⟩
    · exact ⟨_, h, .inl rfl⟩
    · exact ⟨_, h, .inr ⟨_, rfl, .ldVxMem x hge⟩⟩
  | skp x =>
    rcases exec_skp_cases x s with ⟨k, h⟩ | ⟨hgt, h⟩
    · exact ⟨_, h, .inl rfl⟩
    · exact ⟨_, h, .inr ⟨_, rfl, .skp x hgt⟩⟩
  | sknp x =>
    rcases exec_sknp_cases x s with ⟨k, h⟩ | ⟨hgt, h⟩
    · exact ⟨_, h, .inl rfl⟩
    · exact ⟨_, h, .inr ⟨_, rfl, .sknp x hgt⟩⟩
  | ldVxK x =>
    rcases exec_ldVxK_cases x s with h | ⟨k, h⟩
    · exact ⟨_, h, .inl rfl⟩
    · exact ⟨_, h, .inl rfl⟩
  | shr | shl => exact ⟨_, rfl, .inl (OnlyChanges.writeShift s _ _ _ _ .faulted (by decide))⟩
  | cls | jp | seImm | sneImm | seReg | sneReg | ldImm | addImm | ldReg | orReg | andReg | xorReg | addReg | sub | subn
  | ldI | jpV0 | rnd | ldVxDt | ldDtVx | ldStVx | addI | ldF => exact ⟨_, rfl, .inl rfl⟩

/-- An instruction that leaves a fault where none was recorded raised it for its listed cause. -/
theorem raisedBy_of_exec {i : Instr} {s t : State} {f : Fault} (hn : s.faulted = none) (h : exec i s = .next t)
    (hf : t.faulted = some f) : RaisedBy s i f := by
  obtain ⟨u, hu, hkept | ⟨g, rfl, hraised⟩⟩ := exec_keepsFaulted_or_raisedBy i s
  · cases hu.symm.trans h
    cases hn.symm.trans (hkept.symm.trans hf)
  · cases hu.symm.trans h
    cases hf
    exact hraised

/-- Settles O40: a fault comes from the fetch, from an `Unknown` word, or from the instruction the step ran. -/
theorem stepFaultsHaveTheListedCauses : Obligations.StepFaultsHaveTheListedCauses := by
  intro s t f h hf
  obtain ⟨hn, -⟩ := step_next_cases h
  by_cases hp : s.pc.toNat + 1 < 4096
  · cases hd : decode s.wordAtPc with
    | unknown =>
      cases (step_of_unknown hn (fetch_eq_wordAtPc hp) hd).symm.trans h
      cases hf
      exact ⟨by omega, rfl, hd⟩
    | instr i =>
      have hpc : s.pc.toNat < 0xFFF := by omega
      cases raisedBy_of_exec hn (exec_of_step h hp hd) hf with
      | call nnn hfull => exact ⟨rfl, hfull, nnn, rfl⟩
      | ret hempty => exact ⟨rfl, hempty, rfl⟩
      | drw x y n h0 hgt => exact .inr ⟨hpc, rfl, .inl ⟨x, y, n, rfl, h0, hgt⟩⟩
      | ldB x hge => exact .inr ⟨hpc, rfl, .inr (.inl ⟨x, rfl, hge⟩)⟩
      | ldMemVx x hge => exact .inr ⟨hpc, rfl, .inr (.inr ⟨x, .inl rfl, hge⟩)⟩
      | ldVxMem x hge => exact .inr ⟨hpc, rfl, .inr (.inr ⟨x, .inr rfl, hge⟩)⟩
      | skp x hgt => exact ⟨x, .inl rfl, rfl, hgt⟩
      | sknp x hgt => exact ⟨x, .inr rfl, rfl, hgt⟩
  · have hge : 4096 ≤ s.pc.toNat + 1 := by omega
    cases (step_of_pc_ge hn hge).symm.trans h
    cases hf
    exact .inl ⟨by omega, rfl⟩

end Sys2Proof.Machine
end

section
/-! PROOFS. What an instruction does not look at (10_state.md R29, R34): the stack, unless it calls or returns, and the
random source, unless it draws; and O45 and O46. -/

namespace Sys2Proof.Machine

open Sys2Proof

/-- The same state with other stack slots and another count of draws. -/
def State.withStackAndDraws (s : State) (stack : Vector Word 16) (draws : Nat) : State :=
  { s with stack := stack, draws := draws }

section
variable {s t : State} {stack : Vector Word 16} {draws : Nat}

theorem State.writeShift_withStackAndDraws (o : ShiftFlagOrder) (x : Reg) (shift : Byte → Byte) (flag : Byte) :
    (s.withStackAndDraws stack draws).writeShift o x shift flag =
      (s.writeShift o x shift flag).withStackAndDraws stack draws := by
  unfold State.writeShift
  split <;> rfl

/-- A checked access that is the same at both states, and goes on alike, ends alike. -/
theorem commit_ofExcept_withStackAndDraws {α : Type} {e : Except Fault α} {k k' : α → State}
    (hk : ∀ a, k' a = (k a).withStackAndDraws stack draws)
    (h : commit s (.ofExcept e fun a => .done (k a)) = .next t) :
    commit (s.withStackAndDraws stack draws) (.ofExcept e fun a => .done (k' a)) =
      .next (t.withStackAndDraws stack draws) := by
  cases e with
  | ok a =>
    obtain rfl := Host.Outcome.next.inj h
    exact congrArg Host.Outcome.next (hk a)
  | error f =>
    obtain rfl := Host.Outcome.next.inj h
    rfl

/-- An instruction that neither returns, calls nor draws sees neither the stack nor the count of draws. -/
theorem exec_withStackAndDraws {i : Instr} (hret : i ≠ .ret) (hcall : ∀ nnn, i ≠ .call nnn)
    (hrnd : ∀ x kk, i ≠ .rnd x kk) (h : exec i s = .next t) :
    exec i (s.withStackAndDraws stack draws) = .next (t.withStackAndDraws stack draws) := by
  cases i with
  | ret => exact absurd rfl hret
  | call nnn => exact absurd rfl (hcall nnn)
  | rnd x kk => exact absurd rfl (hrnd x kk)
  | drw | skp | sknp | ldB | ldMemVx | ldVxMem => exact commit_ofExcept_withStackAndDraws (fun _ => rfl) h
  | ldVxK x =>
    cases hkey : s.lowestPressed with
    | none =>
      cases (exec_ldVxK_of_none x hkey).symm.trans h
      exact exec_ldVxK_of_none x hkey
    | some k =>
      cases (exec_ldVxK_of_some x hkey).symm.trans h
      exact exec_ldVxK_of_some x hkey
  | shr x y =>
    obtain rfl := Host.Outcome.next.inj h
    rw [exec_shr, State.writeShift_withStackAndDraws]
    rfl
  | shl x y =>
    obtain rfl := Host.Outcome.next.inj h
    rw [exec_shl, State.writeShift_withStackAndDraws]
    rfl
  | cls | jp | seImm | sneImm | seReg | sneReg | ldImm | addImm | ldReg | orReg | andReg | xorReg | addReg | sub | subn
  | ldI | jpV0 | ldVxDt | ldDtVx | ldStVx | addI | ldF =>
    obtain rfl := Host.Outcome.next.inj h
    rfl

theorem exec_keeps_stack {i : Instr} (hret : i ≠ .ret) (hcall : ∀ nnn, i ≠ .call nnn) (h : exec i s = .next t) :
    t.sp = s.sp ∧ t.stack = s.stack := by
  obtain ⟨hsp, hst⟩ := stack_not_mem_changesOf hret hcall
  have hframe := (InstrFrame.of_exec h).1
  exact ⟨hframe .sp (by simp [hsp]), Vector.ext fun j hj => hframe .stack (by simp [hst]) ⟨j, hj⟩⟩

theorem exec_keeps_draws {i : Instr} (hrnd : ∀ x kk, i ≠ .rnd x kk) (h : exec i s = .next t) :
    t.draws = s.draws := by
  refine (InstrFrame.of_exec h).1 .draws ?_
  cases i with
  | rnd x kk => exact absurd rfl (hrnd x kk)
  | _ => simp [changesOf]

end

/-- Settles O46: `RET` and `CALL` look at the stack alone, and the other instructions at neither the stack nor the
draws. -/
theorem onlyRndReachesTheRandomSource : Obligations.OnlyRndReachesTheRandomSource := by
  intro i s t d hrnd h
  by_cases hret : i = .ret
  · subst hret
    rcases exec_ret_cases s with ⟨n, hn, he⟩ | ⟨hempty, he⟩ <;> cases he.symm.trans h
    · exact exec_ret_of_succ (s := { s with draws := d }) hn
    · exact exec_ret_of_empty (s := { s with draws := d }) hempty
  by_cases hcall : ∃ nnn, i = .call nnn
  · obtain ⟨nnn, rfl⟩ := hcall
    by_cases hlt : s.sp.val < 16
    · cases (exec_call_of_lt nnn hlt).symm.trans h
      exact exec_call_of_lt (s := { s with draws := d }) nnn hlt
    · have hfull : s.sp.val = 16 := by omega
      cases (exec_call_of_full nnn hfull).symm.trans h
      exact exec_call_of_full (s := { s with draws := d }) nnn hfull
  · have hcall := not_exists.mp hcall
    obtain ⟨-, hstack⟩ := exec_keeps_stack hret hcall h
    have hsame : exec i { s with draws := d } = .next (t.withStackAndDraws s.stack d) :=
      exec_withStackAndDraws hret hcall hrnd h
    rw [hsame, ← hstack]
    rfl

/-- An instruction sees of the stack only the slots below `SP`: `RET` reads one of them, and `CALL` writes the first
slot above them. -/
theorem exec_ignores_staleSlots {i : Instr} {s s' : State} {stack : Vector Word 16}
    (hslots : ∀ j : Fin 16, j.val < s.sp.val → stack[j.val] = s.stack[j.val]) (h : exec i s = .next s') :
    ∃ t', exec i { s with stack := stack } = .next t' ∧ SameButStaleSlots s' t' := by
  by_cases hret : i = .ret
  · subst hret
    rcases exec_ret_cases s with ⟨n, hn, he⟩ | ⟨hempty, he⟩ <;> cases he.symm.trans h
    · refine ⟨_, exec_ret_of_succ (s := { s with stack := stack }) hn,
        fun j hj => hslots j (hn ▸ Nat.lt_succ_of_lt hj), ?_⟩
      have htop : stack[n.val] = s.stack[n.val] := hslots n (by omega)
      simp [State.afterRet, State.writePc, htop]
    · exact ⟨_, exec_ret_of_empty (s := { s with stack := stack }) hempty, hslots, rfl⟩
  by_cases hcall : ∃ nnn, i = .call nnn
  · obtain ⟨nnn, rfl⟩ := hcall
    by_cases hlt : s.sp.val < 16
    · cases (exec_call_of_lt nnn hlt).symm.trans h
      refine ⟨_, exec_call_of_lt (s := { s with stack := stack }) nnn hlt, fun j hj => ?_, rfl⟩
      rw [State.afterCall_stack, State.afterCall_stack]
      split
      case isTrue => rfl
      case isFalse hne => exact hslots j (by have : j.val < s.sp.val + 1 := hj; dsimp only at hne; omega)
    · have hfull : s.sp.val = 16 := by omega
      cases (exec_call_of_full nnn hfull).symm.trans h
      exact ⟨_, exec_call_of_full (s := { s with stack := stack }) nnn hfull, hslots, rfl⟩
  by_cases hrnd : ∃ x kk, i = .rnd x kk
  · obtain ⟨x, kk, rfl⟩ := hrnd
    cases (exec_rnd x kk s).symm.trans h
    exact ⟨_, exec_rnd x kk _, hslots, rfl⟩
  · have hcall := not_exists.mp hcall
    have hrnd (x : Reg) (kk : Byte) : i ≠ .rnd x kk := fun e => hrnd ⟨x, kk, e⟩
    obtain ⟨hsp, hstack⟩ := exec_keeps_stack hret hcall h
    have hdraws := exec_keeps_draws hrnd h
    refine ⟨_, exec_withStackAndDraws (stack := stack) (draws := s.draws) hret hcall hrnd h, fun j hj => ?_, ?_⟩
    · rw [hstack]
      exact hslots j (hsp ▸ hj)
    · rw [← hdraws]
      rfl

/-- Settles O45: fetch and decode do not look at the stack, and the instruction looks at no stale slot of it. -/
theorem staleStackSlotsAreNeverObserved : Obligations.StaleStackSlotsAreNeverObserved := by
  rintro s t s' ⟨hslots, ht⟩ h
  generalize t.stack = stack at hslots ht
  subst ht
  rcases step_cases s with ⟨f, -, hs⟩ | ⟨hn, ⟨f, hw, hs⟩ | ⟨w, hw, hd, hs⟩ | ⟨w, i, hw, hd, hs⟩⟩
  · cases hs.symm.trans h
  · cases hs.symm.trans h
    exact ⟨_, step_of_fetch_error (s := { s with stack := stack }) hn hw, hslots, rfl⟩
  · cases hs.symm.trans h
    exact ⟨_, step_of_unknown (s := { s with stack := stack }) hn hw hd, hslots, rfl⟩
  · have ht := step_of_instr (s := { s with stack := stack }) hn hw hd
    rw [ht]
    exact exec_ignores_staleSlots hslots (hs.symm.trans h)

end Sys2Proof.Machine
end

section
/-! PROOFS. The step at the word it fetches (40_cycle.md R68): at `pc`, where a run has ended (70_reset_and_hazards.md
R149), and where a word was placed (log entry 7); and O6, O9 and O47. -/

namespace Sys2Proof.Machine

open Sys2Proof

/-- Settles O6: the fetch succeeds, so the step is that of its decoded word. -/
theorem stepRunsTheDecodedInstruction : Obligations.StepRunsTheDecodedInstruction := fun _ _ => step_eq_exec

/-! ### A placed word -/

theorem decode_tableWord {n w : Nat} {i : Instr} (h : decodeTableWord n w = some i) :
    decode (tableWord n w) = .instr i := by
  cases hd : decode (tableWord n w) with
  | instr j => simpa [decodeTableWord, decodeBytes, hd] using h
  | unknown => simp [decodeTableWord, decodeBytes, hd] at h

/-- Settles O9: the placed word is the one fetched, and it decodes as the table word does. -/
theorem withFetchWordRunsTheWord : Obligations.WithFetchWordRunsTheWord := fun s _ _ h =>
  step_of_instr s.fetchable_faulted (fetch_placeWord s.fetchable _ s.fetchable_pc_le) (decode_tableWord h)

/-! ### The self-jump -/

/-- The high byte of a self-jump: the digit 1 above the high digit of a 12-bit address. -/
theorem selfJump_hiByte_toNat {pc : Word} (h : pc.toNat ≤ 0xFFE) :
    (0x10#8 ||| (pc >>> 8).truncate 8).toNat = 0x10 + pc.toNat / 256 := by
  have hdigit : ∀ d : Fin 16, 0x10 ||| d.val = 0x10 + d.val := by decide
  have hlt : pc.toNat / 256 < 16 := by omega
  rw [BitVec.toNat_or, BitVec.truncate_eq_setWidth, BitVec.toNat_setWidth, BitVec.toNat_ushiftRight,
    Nat.shiftRight_eq_div_pow, Nat.mod_eq_of_lt (by omega)]
  exact hdigit ⟨pc.toNat / 256, hlt⟩

/-- Where a run has ended, the word at `pc` is the jump to `pc`. -/
theorem State.ended.decode_wordAtPc {s : State} (h : s.ended) :
    decode s.wordAtPc = .instr (.jp (s.pc.truncate 12)) := by
  obtain ⟨-, hpc, hhi, hlo⟩ := h
  apply decode_jpWord
  have hword : s.wordAtPc.toNat = 256 * (s.mem.read s.pc.toNat).toNat + (s.mem.read (s.pc.toNat + 1)).toNat :=
    wordOfBytes_toNat _ _
  rw [hword, hhi, hlo, selfJump_hiByte_toNat hpc, BitVec.truncate_eq_setWidth, BitVec.truncate_eq_setWidth,
    BitVec.toNat_setWidth, BitVec.toNat_setWidth]
  omega

theorem zextAddr_truncate {pc : Word} (h : pc.toNat ≤ 0xFFE) : zextAddr (pc.truncate 12) = pc := by
  apply BitVec.eq_of_toNat_eq
  rw [zextAddr_toNat, BitVec.truncate_eq_setWidth, BitVec.toNat_setWidth]
  omega

/-- Settles O47: the step runs the jump to its own address, which writes `pc` over with itself. -/
theorem theEndOfARunStays : Obligations.TheEndOfARunStays := by
  intro s h
  obtain ⟨hn, hpc, -, -⟩ := id h
  rw [step_eq_exec hn (by omega) h.decode_wordAtPc, exec_jp, zextAddr_truncate hpc]
  rfl

end Sys2Proof.Machine
end

section
/-! PROOFS. Two instructions one after the other: a sprite drawn twice (41_display.md R80), a return after a call
(42_control_flow.md R84), a fetch after a store (20_memory.md R54); and O12, O16 and O37. -/

namespace Sys2Proof.Machine

open Sys2Proof

/-! ### A sprite drawn twice -/

theorem flagByte_eq_one {c : Bool} (h : c = true) : flagByte c = 1 := h ▸ rfl

theorem flagByte_eq_zero {c : Bool} (h : ¬c = true) : flagByte c = 0 := Bool.eq_false_of_not_eq_true h ▸ rfl

/-- Drawing writes no register but `VF`, and neither `I` nor memory, so that the sprite stays where it was. -/
theorem spriteCovers_afterDrw_iff (s : State) {x y : Reg} (hx : x ≠ VF) (hy : y ≠ VF) (n : Nat) (px : Fin 64)
    (py : Fin 32) : SpriteCovers (s.afterDrw x y n) x y n px py ↔ SpriteCovers s x y n px py := by
  have hregs := RegsUnchangedBut.afterDrw s x y n
  rw [SpriteCovers, hregs x (by simpa using hx), hregs y (by simpa using hy)]
  rfl

/-- Settles O12: the second drawing toggles the same pixels back, and a covered pixel is lit before it exactly when it
was unlit before the first. -/
theorem drawingTwiceRestoresTheDisplay : Obligations.DrawingTwiceRestoresTheDisplay := by
  intro s x y n hx hy hle
  have hn : n.val ≤ 32 := by omega
  have hcovers := spriteCovers_afterDrw_iff s hx hy n.val
  have hfirst := (s.drawSprite_toggles x y hn).1
  have hsecond := ((s.afterDrw x y n.val).drawSprite_toggles x y hn).1
  have hcollides : ((s.afterDrw x y n.val).drawSprite x y n.val).2 = true ↔
      ∃ px py, SpriteCovers s x y n.val px py ∧ s.display.pixel px py = false := by
    rw [State.drawSprite_collides_iff _ x y hn]
    refine exists₂_congr fun px py => ?_
    rw [hcovers]
    refine and_congr_right fun hc => ?_
    rw [State.afterDrw_display, (hfirst px py).1 hc, Bool.not_eq_true']
  refine ⟨_, _, exec_drw_of_le x y hle, exec_drw_of_le (s := s.afterDrw x y n.val) x y hle, ?restored,
    fun hunlit => ?some, fun hnone => ?none⟩
  case restored =>
    refine Display.ext_pixel fun px py => ?_
    by_cases hc : SpriteCovers s x y n.val px py
    · exact ((hsecond px py).1 ((hcovers px py).mpr hc)).trans (by simp [(hfirst px py).1 hc])
    · exact ((hsecond px py).2 (mt (hcovers px py).mp hc)).trans ((hfirst px py).2 hc)
  case some => exact (State.afterDrw_readV_VF _ x y n.val).trans (flagByte_eq_one (hcollides.mpr hunlit))
  case none => exact (State.afterDrw_readV_VF _ x y n.val).trans (flagByte_eq_zero (mt hcollides.mp hnone))

/-! ### A return after a call -/

/-- Settles O16: the return pops the slot the call pushed, and the call wrote no slot below it. -/
theorem callThenRetComesBackToTheCall : Obligations.CallThenRetComesBackToTheCall := by
  intro s nnn hlt
  rcases exec_call_cases nnn s with ⟨n, hn, hcall⟩ | ⟨hfull, -⟩
  · have hsp : n.castSucc = s.sp := Fin.ext hn.symm
    have htop : (s.afterCall nnn n).stack[n.val] = s.pc := by rw [State.afterCall_stack, if_pos rfl]
    refine ⟨_, _, hcall, exec_ret_of_succ (s := s.afterCall nnn n) (n := n) rfl, htop, hsp, fun j hj => ?slots, ?rest⟩
    case slots => exact (s.afterCall_stack nnn n j).trans (if_neg (by omega))
    case rest =>
      rw [State.afterRet, htop, hsp]
      rfl
  · omega

/-! ### A fetch after a store -/

/-- Settles O37: the two bytes the fetch reads are the two stored registers. -/
theorem nextFetchSeesTheStore : Obligations.NextFetchSeesTheStore := by
  intro s x j k hi hk hjk hpc hat
  have hlen := s.length_regsUpTo x
  have hkx : k.val ≤ x.val := hk
  have hstored (r : Reg) (hr : r.val ≤ x.val) :
      (s.afterStore (s.regsUpTo x)).mem.read (s.i.toNat + r.val) = s.readV r := by
    rw [State.afterStore_read_inside (by omega), State.getElem_regsUpTo]
  have hpc' : (s.afterStore (s.regsUpTo x)).pc.toNat = s.i.toNat + j.val := by
    rw [(s.afterStore_frame _).1, BitVec.toNat_add]
    exact (Nat.mod_eq_of_lt hpc).trans hat
  refine ⟨_, (exec_ldMemVx x s).trans (State.storeAtI_of_le (by omega)), ?_⟩
  rw [fetch_eq_wordAtPc (by omega), State.wordAtPc, hpc', Nat.add_assoc, ← hjk, hstored j (by omega), hstored k hkx]

end Sys2Proof.Machine
end

section
/-! PROOFS. The canonical form of a memory is unique (log entry 5); and O38. -/

namespace Sys2Proof.Machine

open Sys2Proof

/-- No entry repeats what an unlisted address reads as. -/
def Memory.Listed (m : Memory) : Prop := ∀ c ∈ m, c.2 ≠ Memory.initial c.1

theorem Memory.rising_and_listed_of_wf {m : Memory} (h : m.wf = true) : Memory.rising 0 m = true ∧ m.Listed := by
  simp only [Memory.wf, Bool.and_eq_true, List.all_eq_true, decide_eq_true_eq] at h
  obtain ⟨hrising, hentries⟩ := h
  exact ⟨hrising, fun c hc => (hentries c hc).2⟩

theorem Memory.rising_cons {low k : Nat} {b : Byte} {m : Memory} (h : Memory.rising low ((k, b) :: m) = true) :
    low ≤ k ∧ Memory.rising (k + 1) m = true := by
  simpa [Memory.rising] using h

theorem Memory.read_cons_self (k : Nat) (b : Byte) (m : Memory) : Memory.read ((k, b) :: m) k = b := if_pos rfl

theorem Memory.read_cons_ne {k a : Nat} (b : Byte) (m : Memory) (h : k ≠ a) :
    Memory.read ((k, b) :: m) a = m.read a := if_neg h

/-- The lowest entry of one memory is no lower than that of another that reads alike: below its own lowest entry, the
other reads as a fresh machine does, which no entry does. -/
theorem Memory.head_le_of_read_eq {k k' : Nat} {b b' : Byte} {m m' : Memory} (hb : b ≠ Memory.initial k)
    (hrising : Memory.rising (k' + 1) m' = true)
    (hread : ∀ a, Memory.read ((k, b) :: m) a = Memory.read ((k', b') :: m') a) : k' ≤ k := by
  refine Nat.le_of_not_lt fun hlt => hb ?_
  rw [← Memory.read_cons_self k b m, hread k, Memory.read_cons_ne b' m' (by omega),
    Memory.read_below_rising hrising (by omega)]

/-- A memory with an entry does not read as one without. -/
theorem Memory.read_cons_ne_read_nil {k : Nat} {b : Byte} {m : Memory} (h : Memory.Listed ((k, b) :: m)) :
    Memory.read ((k, b) :: m) k ≠ Memory.read [] k := by
  rw [Memory.read_cons_self]
  exact h (k, b) List.mem_cons_self

theorem Memory.eq_of_read_eq {m m' : Memory} {low low' : Nat} (hm : Memory.rising low m = true)
    (hm' : Memory.rising low' m' = true) (hl : m.Listed) (hl' : m'.Listed) (hread : ∀ a, m.read a = m'.read a) :
    m = m' := by
  induction m generalizing m' low low' with
  | nil =>
    cases m' with
    | nil => rfl
    | cons c m' => exact absurd (hread c.1).symm (Memory.read_cons_ne_read_nil hl')
  | cons c m ih =>
    cases m' with
    | nil => exact absurd (hread c.1) (Memory.read_cons_ne_read_nil hl)
    | cons c' m' =>
      obtain ⟨k, b⟩ := c
      obtain ⟨k', b'⟩ := c'
      obtain ⟨-, hrest⟩ := Memory.rising_cons hm
      obtain ⟨-, hrest'⟩ := Memory.rising_cons hm'
      obtain rfl : k = k' := Nat.le_antisymm
        (Memory.head_le_of_read_eq (hl' (k', b') List.mem_cons_self) hrest fun a => (hread a).symm)
        (Memory.head_le_of_read_eq (hl (k, b) List.mem_cons_self) hrest' hread)
      obtain rfl : b = b' := by simpa only [Memory.read_cons_self] using hread k
      have htail (a : Nat) : Memory.read m a = Memory.read m' a := by
        by_cases ha : k = a
        · subst ha
          rw [Memory.read_below_rising hrest (by omega), Memory.read_below_rising hrest' (by omega)]
        · simpa only [Memory.read_cons_ne b _ ha] using hread a
      rw [ih hrest hrest' (fun c hc => hl c (List.mem_cons_of_mem _ hc))
        (fun c hc => hl' c (List.mem_cons_of_mem _ hc)) htail]

/-- Settles O38: rising lists without redundant entries agree entry by entry when they read alike. -/
theorem canonicalMemoriesThatReadAlikeAreEqual : Obligations.CanonicalMemoriesThatReadAlikeAreEqual := by
  intro m m' hm hm' hread
  obtain ⟨hrising, hlisted⟩ := Memory.rising_and_listed_of_wf hm
  obtain ⟨hrising', hlisted'⟩ := Memory.rising_and_listed_of_wf hm'
  exact Memory.eq_of_read_eq hrising hrising' hlisted hlisted' hread

end Sys2Proof.Machine
end
